-- ==== Sys2Proof/Word.lean ====
section
/-! DEFINITION. The sizes of the machine: words, bytes, register numbers (spec/00_scope.md R2, R5). -/

namespace Sys2Proof

/-- A word: 16 bits, unsigned (00_scope.md R5; WORD_BITS = 16 of R2). -/
abbrev Word := BitVec 16

/-- A byte of memory. -/
abbrev Byte := BitVec 8

/-- A register number: NREG = 8 registers (00_scope.md R2, 10_state.md R11). -/
abbrev RegIndex := Fin 8

/-- LIT_MAX: the largest literal operand word (00_scope.md R2). -/
abbrev litMax : Nat := 32767

/-- REG_BASE: the operand word that names register 0 (00_scope.md R2). -/
abbrev regBase : Nat := 32768

/-- REG_TOP: the operand word that names register 7 (00_scope.md R2). -/
abbrev regTop : Nat := 32775

/-- MODULUS: the modulus of Add and Multiply (00_scope.md R2). -/
abbrev modulus : Nat := 32768

end Sys2Proof
end

