-- ==== Sys2Proof/Syntax.lean ====
section
/-! DEFINITION. The instruction set as syntax: the 22 opcodes, operand words as the decoder classifies them, and one
constructor of `Instr` for each row of spec/opcode_table.json (00_scope.md R4, 30_encoding.md R46 to R55). -/

namespace Sys2Proof

/-- The 22 opcodes, in the row order of 30_encoding.md R49. -/
inductive Op where
  | halt | set | push | pop | equalTo | greaterThan | jumpTo | jumpToIfNotZero | jumpToIfZero
  | add | multiply | modulous | and | or | not | readMemory | writeMemory | call | ret | output | input | noOperation
  deriving DecidableEq, Repr

/-- The opcodes in the row order of 30_encoding.md R49. -/
def Op.all : List Op :=
  [.halt, .set, .push, .pop, .equalTo, .greaterThan, .jumpTo, .jumpToIfNotZero, .jumpToIfZero] ++
  [.add, .multiply, .modulous, .and, .or, .not, .readMemory, .writeMemory, .call, .ret, .output, .input, .noOperation]

/-- An operand word as 30_encoding.md R48 classifies it: a literal of 15 significant bits, a register reference, or an
invalid encoding, which keeps its word so that no bit of an instruction is lost. -/
inductive Operand where
  | lit (v : BitVec 15)
  | reg (i : RegIndex)
  | invalid (w : Word)
  deriving DecidableEq, Repr

/-- The instructions: the 22 opcodes with their operands in memory order (a, b, c of R55), and the unrecognized opcode
with its word. `ret` is the document's Return. -/
inductive Instr where
  | halt
  | set (a b : Operand)
  | push (a : Operand)
  | pop (a : Operand)
  | equalTo (a b c : Operand)
  | greaterThan (a b c : Operand)
  | jumpTo (a : Operand)
  | jumpToIfNotZero (a b : Operand)
  | jumpToIfZero (a b : Operand)
  | add (a b c : Operand)
  | multiply (a b c : Operand)
  | modulous (a b c : Operand)
  | and (a b c : Operand)
  | or (a b c : Operand)
  | not (a b : Operand)
  | readMemory (a b : Operand)
  | writeMemory (a b : Operand)
  | call (a : Operand)
  | ret
  | output (a : Operand)
  | input (a : Operand)
  | noOperation
  | unrecognizedOpcode (w : Word)
  deriving DecidableEq, Repr

/-- The operands of an instruction, in memory order. -/
def Instr.operands : Instr → List Operand
  | .halt | .ret | .noOperation | .unrecognizedOpcode _ => []
  | .push a | .pop a | .jumpTo a | .call a | .output a | .input a => [a]
  | .set a b | .jumpToIfNotZero a b | .jumpToIfZero a b | .not a b | .readMemory a b | .writeMemory a b => [a, b]
  | .equalTo a b c | .greaterThan a b c | .add a b c | .multiply a b c | .modulous a b c | .and a b c | .or a b c => [a, b, c]

/-- The destination operand of an instruction that has one (30_encoding.md R55). -/
def Instr.dest : Instr → Option Operand
  | .set a _ | .pop a | .not a _ | .readMemory a _ | .input a => some a
  | .equalTo a _ _ | .greaterThan a _ _ | .add a _ _ | .multiply a _ _ | .modulous a _ _ | .and a _ _ | .or a _ _ => some a
  | .halt | .push _ | .jumpTo _ | .jumpToIfNotZero _ _ | .jumpToIfZero _ _ | .writeMemory _ _ | .call _ | .ret => none
  | .output _ | .noOperation | .unrecognizedOpcode _ => none

end Sys2Proof
end

