-- ==== Sys2Proof/Config.lean ====
section
/-! DEFINITION. The parameters of the hardware (spec/00_scope.md R2, R3; 92_eei_decisions.md, the parameters left OPEN), and
the free value the spec leaves unconstrained (40_cycle_fetch_decode.md R71). The document's values of the parameters are
`Config.document` in Decode.lean. -/

namespace Sys2Proof

/-- A decoded operand, the spec's Number (10_state.md R20): a literal, or a register reference with the content that
register had at decode time. The value is a whole 16-bit word in both (R66). -/
inductive Number where
  | lit (v : Word)
  | reg (i : RegIndex) (v : Word)
  deriving DecidableEq, Repr, Inhabited

/-- The numbering of the opcodes as a table that can be replaced (30_encoding.md R49, 92_eei_decisions.md D1). -/
abbrev OpcodeTable := List (Op × Word)

/-- A usable numbering: each of the 22 opcodes has one row, in the order of R49, and no two rows share a number. -/
abbrev OpcodeTable.wf (t : OpcodeTable) : Prop :=
  t.map Prod.fst = Op.all ∧ (t.map Prod.snd).Nodup

/-- The parameters of 00_scope.md R2 that are not constants. MEM_BYTES is not a field: it is twice MEM_WORDS
(`memBytes`). -/
structure Config where
  /-- MEM_WORDS, the number of 16-bit memory words. -/
  memWords : Nat
  /-- PC_CEILING, the pc value at or beyond which Fetch synthesizes a Halt. -/
  pcCeiling : Nat
  /-- STACK_DEPTH, none for the document's unbounded stack (10_state.md R26). -/
  stackDepth : Option Nat
  /-- The opcode numbers (30_encoding.md R49). -/
  opcodes : OpcodeTable
  deriving DecidableEq, Repr

/-- MEM_BYTES = 2 × MEM_WORDS (00_scope.md R2). -/
def Config.memBytes (c : Config) : Nat := 2 * c.memWords

/-- What 00_scope.md R3 asks of the sizes, and that the opcode numbering is usable. -/
abbrev Config.wf (c : Config) : Prop :=
  1 ≤ c.memWords ∧ c.memWords ≤ 32768 ∧ c.pcCeiling ≤ c.memWords ∧ c.opcodes.wf

/-- FREE VALUE (log 7). The arbitrary Number that stands for an invalid operand while the corrupted instruction runs
(40_cycle_fetch_decode.md R71: either kind, any index, any 16-bit value), by the count of those drawn before it. It has no
body: nothing can be proved of its value. -/
opaque Config.freeNumber : Nat → Number

end Sys2Proof
end

