-- ==== Sys2Proof/WellFormed.lean ====
section
/-! DEFINITION. Which terms of `Instr` are instructions: those some sequence of memory words encodes. -/

namespace Sys2Proof

/-- An operand term is well formed when its constructor is the one 30_encoding.md R48 gives its word: only a word above
REG_TOP is invalid. A literal and a register reference always are. -/
def Operand.wf : Operand → Bool
  | .lit _ => true
  | .reg _ => true
  | .invalid w => decide (regTop < w.toNat)

/-- An operand that R48 gives a value: a literal or a register reference. -/
def Operand.legal : Operand → Bool
  | .lit _ => true
  | .reg _ => true
  | .invalid _ => false

/-- The unrecognized opcode holds a word the numbering gives to none of the 22 opcodes (30_encoding.md R50). -/
def Instr.opcodeWf (t : OpcodeTable) : Instr → Bool
  | .unrecognizedOpcode w => !(t.map Prod.snd).contains w
  | _ => true

/-- A well-formed instruction: each operand well formed, and an unrecognized opcode really unrecognized. -/
def Instr.wf (t : OpcodeTable) (i : Instr) : Bool :=
  i.opcodeWf t && i.operands.all Operand.wf

/-- An instruction all of whose operands are legal: Fetch raises no DecodeError for it (R67). -/
def Instr.legal (i : Instr) : Bool := i.operands.all Operand.legal

end Sys2Proof
end

