-- ==== Sys2Proof/Decode.lean ====
section
/-! DEFINITION. The opcode numbering, the decoder (total on any bytes, rejecting by name) and the encoder
(spec/30_encoding.md), and the byte order both share with memory (20_memory.md R31). -/

namespace Sys2Proof

/-- The opcode numbers of 30_encoding.md R49. PRESUMED (log 1): the source gives no number; these are the spec's decision
D1, which a replaced table replaces. -/
def opcodeTable : OpcodeTable :=
  [(.halt, 0), (.set, 1), (.push, 2), (.pop, 3), (.equalTo, 4), (.greaterThan, 5), (.jumpTo, 6), (.jumpToIfNotZero, 7)] ++
  [(.jumpToIfZero, 8), (.add, 9), (.multiply, 10), (.modulous, 11), (.and, 12), (.or, 13), (.not, 14), (.readMemory, 15)] ++
  [(.writeMemory, 16), (.call, 17), (.ret, 18), (.output, 19), (.input, 20), (.noOperation, 21)]

/-- The document's values of the parameters (00_scope.md R2): 32767 words (D4), the ceiling at the end of memory (D3), an
unbounded stack (D14), the numbering of R49 (D1). -/
def Config.document : Config :=
  { memWords := 32767, pcCeiling := 32767, stackDepth := none, opcodes := opcodeTable }

/-! Byte order (20_memory.md R31): the byte at the even address is the low byte. -/

/-- The word whose low byte is `lo` and whose high byte is `hi`. -/
def wordOfBytes (lo hi : Byte) : Word := hi ++ lo

/-- Bits 7 to 0 of a word. -/
def lowByte (w : Word) : Byte := w.extractLsb' 0 8

/-- Bits 15 to 8 of a word. -/
def highByte (w : Word) : Byte := w.extractLsb' 8 8

/-- The two bytes of a word in memory order. -/
def bytesOfWord (w : Word) : List Byte := [lowByte w, highByte w]

/-- The first `n` bytes of a number, least significant first. -/
def bytesOfNat : Nat → Nat → List Byte
  | 0, _ => []
  | n + 1, w => BitVec.ofNat 8 w :: bytesOfNat n (w / 256)

/-- The k-th word of a sequence of bytes (absent bytes read 0; the decoder asks for none). -/
def wordAt (bs : List Byte) (k : Nat) : Word := wordOfBytes (bs.getD (2 * k) 0) (bs.getD (2 * k + 1) 0)

/-! Opcode words (30_encoding.md R47, R49). -/

/-- The number of operand words of an opcode, the grouping of R47. -/
def Op.arity : Op → Nat
  | .halt | .ret | .noOperation => 0
  | .push | .pop | .jumpTo | .call | .output | .input => 1
  | .set | .jumpToIfNotZero | .jumpToIfZero | .not | .readMemory | .writeMemory => 2
  | .equalTo | .greaterThan | .add | .multiply | .modulous | .and | .or => 3

/-- The opcode a word selects by its full 16-bit value, none for an unrecognized opcode (R49, R50). -/
def OpcodeTable.opOf (t : OpcodeTable) (w : Word) : Option Op :=
  (t.find? fun row => row.2 == w).map Prod.fst

/-- The number of an opcode. -/
def OpcodeTable.numberOf (t : OpcodeTable) (o : Op) : Word :=
  ((t.find? fun row => row.1 == o).map Prod.snd).getD 0

/-- The operand count of an opcode word, 0 for an unrecognized one (R47, 92_eei_decisions.md D9). -/
def operandCount (t : OpcodeTable) (w : Word) : Nat :=
  match t.opOf w with
  | some o => o.arity
  | none => 0

/-! Operand words (30_encoding.md R48). -/

/-- The kind of an operand word, by its value alone. -/
def decodeOperand (w : Word) : Operand :=
  if w.toNat ≤ litMax then .lit (w.setWidth 15)
  else if h : w.toNat ≤ regTop then .reg ⟨w.toNat - regBase, by simp only [regTop] at h; simp only [regBase]; omega⟩
  else .invalid w

/-- The word of an operand. -/
def Operand.word : Operand → Word
  | .lit v => v.setWidth 16
  | .reg i => BitVec.ofNat 16 (regBase + i.val)
  | .invalid w => w

/-! Instructions (30_encoding.md R46, R54). -/

/-- The instruction of an opcode and its operands; operands beyond its count are not looked at. -/
def Op.instr (o : Op) (a b c : Operand) : Instr :=
  match o with
  | .halt => .halt
  | .set => .set a b
  | .push => .push a
  | .pop => .pop a
  | .equalTo => .equalTo a b c
  | .greaterThan => .greaterThan a b c
  | .jumpTo => .jumpTo a
  | .jumpToIfNotZero => .jumpToIfNotZero a b
  | .jumpToIfZero => .jumpToIfZero a b
  | .add => .add a b c
  | .multiply => .multiply a b c
  | .modulous => .modulous a b c
  | .and => .and a b c
  | .or => .or a b c
  | .not => .not a b
  | .readMemory => .readMemory a b
  | .writeMemory => .writeMemory a b
  | .call => .call a
  | .ret => .ret
  | .output => .output a
  | .input => .input a
  | .noOperation => .noOperation

/-- The instruction whose opcode word is `w` and whose k-th operand word is `arg k`: total, as R54 says. -/
def instrOfWords (t : OpcodeTable) (w : Word) (arg : Nat → Word) : Instr :=
  match t.opOf w with
  | some o => o.instr (decodeOperand (arg 1)) (decodeOperand (arg 2)) (decodeOperand (arg 3))
  | none => .unrecognizedOpcode w

/-- Why the decoder finds no instruction in a sequence of bytes: it ends too early. -/
inductive DecodeReject where
  /-- fewer than two bytes: no opcode word -/
  | noOpcodeWord
  /-- the opcode's operand words are not all there -/
  | missingOperandWord
  deriving DecidableEq, Repr

/-- The instruction at the head of a sequence of bytes, and the bytes after it. -/
def decode (t : OpcodeTable) : List Byte → Except DecodeReject (Instr × List Byte)
  | lo :: hi :: rest =>
    let w := wordOfBytes lo hi
    if rest.length < 2 * operandCount t w then .error .missingOperandWord
    else .ok (instrOfWords t w (wordAt (lo :: hi :: rest)), rest.drop (2 * operandCount t w))
  | _ => .error .noOpcodeWord

/-- What the host asks of the decoder: the instruction whose bits are `w`, bit 0 the least significant of the first word,
every bit from `nbits` up taken as 0. The longest instruction is four words. -/
def decodeTableWord (nbits w : Nat) : Option Instr :=
  match decode opcodeTable (bytesOfNat 8 (w % 2 ^ nbits)) with
  | .ok (i, _) => some i
  | .error _ => none

/-! The encoder (30_encoding.md R46, R48, R49). -/

/-- The opcode word of an instruction. -/
def Instr.opcodeWord (t : OpcodeTable) : Instr → Word
  | .halt => t.numberOf .halt
  | .set _ _ => t.numberOf .set
  | .push _ => t.numberOf .push
  | .pop _ => t.numberOf .pop
  | .equalTo _ _ _ => t.numberOf .equalTo
  | .greaterThan _ _ _ => t.numberOf .greaterThan
  | .jumpTo _ => t.numberOf .jumpTo
  | .jumpToIfNotZero _ _ => t.numberOf .jumpToIfNotZero
  | .jumpToIfZero _ _ => t.numberOf .jumpToIfZero
  | .add _ _ _ => t.numberOf .add
  | .multiply _ _ _ => t.numberOf .multiply
  | .modulous _ _ _ => t.numberOf .modulous
  | .and _ _ _ => t.numberOf .and
  | .or _ _ _ => t.numberOf .or
  | .not _ _ => t.numberOf .not
  | .readMemory _ _ => t.numberOf .readMemory
  | .writeMemory _ _ => t.numberOf .writeMemory
  | .call _ => t.numberOf .call
  | .ret => t.numberOf .ret
  | .output _ => t.numberOf .output
  | .input _ => t.numberOf .input
  | .noOperation => t.numberOf .noOperation
  | .unrecognizedOpcode w => w

/-- The words of an instruction: the opcode word, then each operand's word in order (R46). -/
def encodeWords (t : OpcodeTable) (i : Instr) : List Word := i.opcodeWord t :: i.operands.map Operand.word

/-- The bytes of an instruction as memory holds them. -/
def encode (t : OpcodeTable) (i : Instr) : List Byte := (encodeWords t i).flatMap bytesOfWord

end Sys2Proof
end

