-- ==== Sys2Proof/Machine/State.lean ====
section
/-! DEFINITION. The state of the machine (spec/10_state.md R10 to R26), why a step can stop, and the state after reset (R23). -/

namespace Sys2Proof.Machine

/-- The error state (10_state.md R19). -/
inductive Err where
  | none
  | decodeError
  | invalidOpcode
  | divideByZero
  | addressOutOfRange
  | fetchOutOfRange
  | stackOverflow
  deriving DecidableEq, Repr

/-- Main memory as bytes by address: addresses strictly rising, no entry equal to `unlistedByte` (`Memory.wf`). -/
abbrev Memory := List Host.Cell

/-- What an unlisted address reads as: memory is zero-padded up to its end (20_memory.md R35; log 4). -/
def unlistedByte : Byte := 0

/-- The canonical form of a memory. -/
abbrev Memory.wf (m : Memory) : Prop :=
  m.Pairwise (fun c d => c.1 < d.1) ∧ ∀ c ∈ m, c.2 ≠ unlistedByte

/-- One record of the debug trace (60_exceptions.md R145): the decoded instruction (opcode word and Numbers), the register
bank and the stack, as they are after Fetch and before Execute. -/
structure DebugEntry where
  opcode : Word
  numbers : List Number
  regs : Vector Word 8
  stack : List Word
  deriving DecidableEq, Repr

/-- The state of the machine between cycles (10_state.md R10), with what the environment holds for it (R22, R145). -/
structure State where
  /-- The parameters (00_scope.md R2); the model's own field, changed by no step (log 2). -/
  cfg : Config
  /-- x[0] to x[7] (R11). -/
  regs : Vector Word 8
  /-- The word address of the next instruction (R14). -/
  pc : Word
  /-- The stack, top first (R16). -/
  stack : List Word
  /-- Main memory (20_memory.md R30). -/
  mem : Memory
  /-- The halt flag (R18). -/
  halt : Bool
  /-- The error state (R19). -/
  err : Err
  /-- The decoded-Instruction latch (R20) while an Input waits for a word (40_cycle_fetch_decode.md R75, S_WAIT_IN): that
  Input's Number; nothing otherwise (log 6). -/
  waiting : Option Number
  /-- The words the host will supply, in order (R22; 47_system_io.md R117). -/
  input : List Word
  /-- The words handed to the console-output port, oldest first (R22; 47_system_io.md R116). -/
  output : List Word
  /-- Whether the debug trace is enabled, selected outside the core (60_exceptions.md R145). -/
  debugOn : Bool
  /-- What the debug port has exposed, oldest first (R145). -/
  trace : List DebugEntry
  /-- How many arbitrary Numbers have been drawn (40_cycle_fetch_decode.md R71); the model's own counter (log 7). -/
  freeDraws : Nat
  deriving DecidableEq, Repr

/-- Why the machine stops without a next state. The spec's own error conditions are none of these: they are recorded in
`err`, in a next state. -/
inductive Fault where
  /-- Raised by `step` alone, when pc is below PC_CEILING and outside the memory, which 00_scope.md R3 rules out of the
  parameters: only a state whose `cfg` breaks R3 reaches it. Safe (log 23). -/
  | opcodeOutsideMemory
  deriving DecidableEq, Repr

/-- Why a request has no meaning. -/
inductive Refusal where
  /-- An instruction not modelled yet, by its mnemonic. Raised by no arm. Safe. -/
  | notModelled (mnemonic : String)
  /-- Raised by `launch`, by no instruction: the program image is longer than MEM_BYTES, and "a model must refuse such a
  launch" (20_memory.md R35). Safe (log 20). -/
  | imageTooLong
  deriving DecidableEq, Repr

/-- How a step ends. -/
abbrev Result := Host.Outcome State Fault Refusal

/-- The state after reset (10_state.md R23), memory with nothing placed in it (log 3, 4, 26, 27). -/
def State.reset : State :=
  { cfg := Config.document, regs := Vector.replicate 8 0, pc := 0, stack := [], mem := [], halt := false, err := .none,
    waiting := none, input := [], output := [], debugOn := false, trace := [], freeDraws := 0 }

end Sys2Proof.Machine
end

