-- ==== Sys2Proof/Machine/Ops.lean ====
section
/-! DEFINITION. The operations over memory, registers, stack, program counter and error state that every meaning is written
in: the primitives of spec/00_scope.md R6. -/

namespace Sys2Proof.Machine

/-! Memory by byte (the canonical form is kept by `writeByte`). -/

/-- The byte at an address. -/
def Memory.readByte : Memory → Nat → Byte
  | [], _ => unlistedByte
  | c :: m, a => if c.1 = a then c.2 else Memory.readByte m a

/-- Memory with one byte changed. -/
def Memory.writeByte : Memory → Nat → Byte → Memory
  | [], a, v => if v = unlistedByte then [] else [(a, v)]
  | c :: m, a, v =>
    if a < c.1 then (if v = unlistedByte then c :: m else (a, v) :: c :: m)
    else if a = c.1 then (if v = unlistedByte then m else (a, v) :: m)
    else c :: Memory.writeByte m a v

/-- Memory with a sequence of bytes placed from an address on. -/
def Memory.writeBytes (m : Memory) (a : Nat) : List Byte → Memory
  | [] => m
  | v :: vs => (m.writeByte a v).writeBytes (a + 1) vs

/-- The memory that holds a sequence of bytes from an address on and zeros elsewhere (20_memory.md R35). -/
def Memory.ofBytes (a : Nat) : List Byte → Memory
  | [] => []
  | v :: vs => if v = unlistedByte then Memory.ofBytes (a + 1) vs else (a, v) :: Memory.ofBytes (a + 1) vs

/-! Memory by word (20_memory.md R31, R33, R34): word address `w` is the bytes at 2w (low) and 2w + 1 (high). -/

/-- M[w]. -/
def Memory.readWord (m : Memory) (w : Nat) : Word := wordOfBytes (m.readByte (2 * w)) (m.readByte (2 * w + 1))

/-- M[w] <- v. -/
def Memory.writeWord (m : Memory) (w : Nat) (v : Word) : Memory :=
  (m.writeByte (2 * w) (lowByte v)).writeByte (2 * w + 1) (highByte v)

/-! Registers (10_state.md R11): no register is special. -/

/-- x[i]. -/
def State.getReg (s : State) (i : RegIndex) : Word := s.regs[i]

/-- x[i] <- v. -/
def State.setReg (s : State) (i : RegIndex) (v : Word) : State := { s with regs := s.regs.set i v }

/-! Program counter (R14). -/

/-- pc <- t. -/
def State.setPc (s : State) (t : Word) : State := { s with pc := t }

/-- The advance past an opcode word and `n` operand words (40_cycle_fetch_decode.md R68). -/
def State.advancePc (s : State) (n : Nat) : State := s.setPc (s.pc + BitVec.ofNat 16 (1 + n))

/-! Errors (60_exceptions.md R130, R131). This is the machine's whole exception mechanism: there is no handler, nothing is
saved, and there is no return (R143). -/

/-- raise E: the first condition recorded stays (R131, R137). -/
def State.raise (s : State) (e : Err) : State := if s.err = .none then { s with err := e } else s

/-! The stack (10_state.md R16, R26). -/

/-- Whether a finite STACK_DEPTH is reached (R26). -/
def State.stackFull (s : State) : Bool :=
  match s.cfg.stackDepth with
  | none => false
  | some d => decide (d ≤ s.stack.length)

/-- push(v), with the stack not full. -/
def State.push (s : State) (v : Word) : State := { s with stack := v :: s.stack }

/-- What remains after pop(); the word popped is the head (R17: never called on an empty stack). -/
def State.setStack (s : State) (st : List Word) : State := { s with stack := st }

/-! Data memory of the machine (20_memory.md R33, R37). -/

/-- MemRead(2w, 2), none when the word does not exist. -/
def State.loadWord (s : State) (w : Word) : Option Word :=
  if w.toNat < s.cfg.memWords then some (s.mem.readWord w.toNat) else none

/-- Memory replaced. -/
def State.setMem (s : State) (m : Memory) : State := { s with mem := m }

/-- MemWrite(2w, 2, v), none when the word does not exist. -/
def State.storeWord (s : State) (w v : Word) : Option State :=
  if w.toNat < s.cfg.memWords then some (s.setMem (s.mem.writeWord w.toNat v)) else none

/-! Console (47_system_io.md R116, R117). -/

/-- out(v). -/
def State.emit (s : State) (v : Word) : State := { s with output := s.output ++ [v] }

/-- The input sequence and the latch of a waiting Input replaced. -/
def State.setInput (s : State) (vs : List Word) (wt : Option Number) : State := { s with input := vs, waiting := wt }

/-- One more arbitrary Number drawn (40_cycle_fetch_decode.md R71). -/
def State.countDraw (s : State) : State := { s with freeDraws := s.freeDraws + 1 }

end Sys2Proof.Machine
end

