-- ==== Sys2Proof/Machine/Flags.lean ====
section
/-! DEFINITION. The two status bits-and-codes of the machine, halt and err (spec/10_state.md R18, R19). There are no condition
codes: no instruction sets a flag as a side effect and none tests one (R24). -/

namespace Sys2Proof.Machine

/-- halt <- 1 (R18). -/
def State.setHalt (s : State) : State := { s with halt := true }

/-- The code of an error state (R19). -/
def Err.code : Err → BitVec 3
  | .none => 0
  | .decodeError => 1
  | .invalidOpcode => 2
  | .divideByZero => 3
  | .addressOutOfRange => 4
  | .fetchOutOfRange => 5
  | .stackOverflow => 6

/-- The status interface: halt and err (40_cycle_fetch_decode.md R77). -/
def State.status (s : State) : Bool × BitVec 3 := (s.halt, s.err.code)

/-- A terminal state: the driver issues no further cycle (R60). -/
def State.terminal (s : State) : Bool := s.halt || s.err != .none

/-- A condition as a word: zext_16 of one bit (00_scope.md R6), the result of a comparison. -/
def boolWord (b : Bool) : Word := if b then 1 else 0

end Sys2Proof.Machine
end

