-- ==== Sys2Proof/Machine/Alu.lean ====
section
/-! DEFINITION. The ALU's eight functions on 16-bit unsigned words (spec/44_arith_logic.md R95). -/

namespace Sys2Proof.Machine

/-- ADD15(p, q) = (p + q) mod 32768. -/
def add15 (p q : Word) : Word := BitVec.ofNat 16 ((p.toNat + q.toNat) % modulus)

/-- MUL15(p, q) = (p × q) mod 32768. -/
def mul15 (p q : Word) : Word := BitVec.ofNat 16 (p.toNat * q.toNat % modulus)

/-- MOD(p, q) = p mod q; the instruction calls it for q ≠ 0 only. -/
def modWord (p q : Word) : Word := BitVec.ofNat 16 (p.toNat % q.toNat)

/-- AND(p, q), bit by bit on 16 bits. -/
def andWord (p q : Word) : Word := p &&& q

/-- OR(p, q), bit by bit on 16 bits. -/
def orWord (p q : Word) : Word := p ||| q

/-- NOT15(p) = 0x7FFF ^ p: bits 14..0 inverted, bit 15 unchanged. -/
def not15 (p : Word) : Word := 0x7FFF#16 ^^^ p

/-- EQ(p, q). -/
def eqWord (p q : Word) : Word := boolWord (decide (p = q))

/-- GT(p, q), unsigned. -/
def gtWord (p q : Word) : Word := boolWord (decide (q.toNat < p.toNat))

end Sys2Proof.Machine
end

