-- ==== Sys2Proof/Machine/Operands.lean ====
section
/-! DEFINITION. The operand resolver, the destination guard, and how a rule is run on an instruction's resolved operands
(spec/40_cycle_fetch_decode.md R65, R66, R67, R71, R73). -/

namespace Sys2Proof.Machine

/-- val(n) (R66). -/
def numVal : Number → Word
  | .lit v => v
  | .reg _ v => v

/-- resolve(w) (R66): a literal is itself, a register reference carries the register's content. An invalid operand records
DecodeError (R67) and stands for an arbitrary Number, drawn afresh (R71, log 7, log 8). -/
def resolve (o : Operand) (s : State) : Number × State :=
  match o with
  | .lit v => (.lit (v.setWidth 16), s)
  | .reg i => (.reg i (s.getReg i), s)
  | .invalid _ => (Config.freeNumber s.freeDraws, (s.raise .decodeError).countDraw)

/-- The operands of an instruction resolved, the last one first, and put back in memory order (R65). -/
def resolveAll : List Operand → State → List Number × State
  | [], s => ([], s)
  | o :: os, s =>
    let later := resolveAll os s
    let this := resolve o later.2
    (this.1 :: later.1, this.2)

/-- A rule of one operand run on its Number. -/
def run1 (a : Operand) (s : State) (rule : Number → State → State) : Result :=
  let ra := resolve a s
  .next (rule ra.1 ra.2)

/-- A rule of two operands run on their Numbers. -/
def run2 (a b : Operand) (s : State) (rule : Number → Number → State → State) : Result :=
  let rb := resolve b s
  let ra := resolve a rb.2
  .next (rule ra.1 rb.1 ra.2)

/-- A rule of three operands run on their Numbers. -/
def run3 (a b c : Operand) (s : State) (rule : Number → Number → Number → State → State) : Result :=
  let rc := resolve c s
  let rb := resolve b rc.2
  let ra := resolve a rb.2
  .next (rule ra.1 rb.1 rc.1 ra.2)

/-- The destination guard (R73): what is done to register idx(a) if `a` is a register reference, else nothing. -/
def ifReg (a : Number) (s : State) (act : RegIndex → State) : State :=
  match a with
  | .lit _ => s
  | .reg i _ => act i

/-- if isreg(a): x[idx(a)] <- v. -/
def writeDest (a : Number) (v : Word) (s : State) : State := ifReg a s fun i => s.setReg i v

end Sys2Proof.Machine
end

