-- ==== Sys2Proof/Machine/ArithLogic.lean ====
section
/-! DEFINITION. Add, Multiply, Modulous, And, Or, Not (spec/44_arith_logic.md). -/

namespace Sys2Proof.Machine

/-- Add a b c (R98). -/
def execAdd (a b c : Operand) (s : State) : Result :=
  run3 a b c s fun a b c s => writeDest a (add15 (numVal b) (numVal c)) s

/-- Multiply a b c (R99). -/
def execMultiply (a b c : Operand) (s : State) : Result :=
  run3 a b c s fun a b c s => writeDest a (mul15 (numVal b) (numVal c)) s

/-- Modulous a b c (R100): a zero divisor raises DivideByZero under a register destination only. -/
def execModulous (a b c : Operand) (s : State) : Result :=
  run3 a b c s fun a b c s => ifReg a s fun i =>
    if numVal c = 0 then s.raise .divideByZero else s.setReg i (modWord (numVal b) (numVal c))

/-- And a b c (R101). -/
def execAnd (a b c : Operand) (s : State) : Result :=
  run3 a b c s fun a b c s => writeDest a (andWord (numVal b) (numVal c)) s

/-- Or a b c (R102). -/
def execOr (a b c : Operand) (s : State) : Result :=
  run3 a b c s fun a b c s => writeDest a (orWord (numVal b) (numVal c)) s

/-- Not a b (R103). -/
def execNot (a b : Operand) (s : State) : Result :=
  run2 a b s fun a b s => writeDest a (not15 (numVal b)) s

end Sys2Proof.Machine
end

