-- ==== Sys2Proof/Machine/CallReturn.lean ====
section
/-! DEFINITION. Call, Return (spec/46_call_return.md). -/

namespace Sys2Proof.Machine

/-- Call a (R110): the pc pushed is the advanced one; on a full stack nothing is pushed and pc keeps its value. -/
def execCall (a : Operand) (s : State) : Result :=
  run1 a s fun a s => if s.stackFull then s.raise .stackOverflow else (s.push s.pc).setPc (numVal a)

/-- Return (R111): on an empty stack it halts. -/
def execReturn (s : State) : Result :=
  match s.stack with
  | [] => .next s.setHalt
  | v :: st => .next ((s.setStack st).setPc v)

end Sys2Proof.Machine
end

