-- ==== Sys2Proof/Machine/Compare.lean ====
section
/-! DEFINITION. EqualTo, GreaterThan (spec/42_compare.md). -/

namespace Sys2Proof.Machine

/-- EqualTo a b c (R85). -/
def execEqualTo (a b c : Operand) (s : State) : Result :=
  run3 a b c s fun a b c s => writeDest a (eqWord (numVal b) (numVal c)) s

/-- GreaterThan a b c (R86). -/
def execGreaterThan (a b c : Operand) (s : State) : Result :=
  run3 a b c s fun a b c s => writeDest a (gtWord (numVal b) (numVal c)) s

end Sys2Proof.Machine
end

