-- ==== Sys2Proof/Machine/DataStack.lean ====
section
/-! DEFINITION. Set, Push, Pop (spec/41_data_stack.md). In every meaning pc has already been advanced (R68). -/

namespace Sys2Proof.Machine

/-- Set a b (R80). -/
def execSet (a b : Operand) (s : State) : Result :=
  run2 a b s fun a b s => writeDest a (numVal b) s

/-- Push a (R81); on a full stack of finite depth StackOverflow and nothing pushed (10_state.md R26). -/
def execPush (a : Operand) (s : State) : Result :=
  run1 a s fun a s => if s.stackFull then s.raise .stackOverflow else s.push (numVal a)

/-- Pop a (R82): nothing happens under a literal destination or on an empty stack. -/
def execPop (a : Operand) (s : State) : Result :=
  run1 a s fun a s => ifReg a s fun i =>
    match s.stack with
    | [] => s
    | v :: st => (s.setStack st).setReg i v

end Sys2Proof.Machine
end

