-- ==== Sys2Proof/Machine/Jumps.lean ====
section
/-! DEFINITION. JumpTo, JumpToIfNotZero, JumpToIfZero (spec/43_jumps.md). The target is a word address (10_state.md R14). -/

namespace Sys2Proof.Machine

/-- JumpTo a (R90). -/
def execJumpTo (a : Operand) (s : State) : Result :=
  run1 a s fun a s => s.setPc (numVal a)

/-- JumpToIfNotZero a b (R91). -/
def execJumpToIfNotZero (a b : Operand) (s : State) : Result :=
  run2 a b s fun a b s => if numVal a ≠ 0 then s.setPc (numVal b) else s

/-- JumpToIfZero a b (R92). -/
def execJumpToIfZero (a b : Operand) (s : State) : Result :=
  run2 a b s fun a b s => if numVal a = 0 then s.setPc (numVal b) else s

end Sys2Proof.Machine
end

