-- ==== Sys2Proof/Machine/MemoryAccess.lean ====
section
/-! DEFINITION. ReadMemory, WriteMemory (spec/45_memory_access.md). -/

namespace Sys2Proof.Machine

/-- ReadMemory a b (R105): under a literal destination nothing is read and nothing is raised. -/
def execReadMemory (a b : Operand) (s : State) : Result :=
  run2 a b s fun a b s => ifReg a s fun i =>
    match s.loadWord (numVal b) with
    | none => s.raise .addressOutOfRange
    | some v => s.setReg i v

/-- WriteMemory a b (R106): the operand `a` is an address, not a destination. -/
def execWriteMemory (a b : Operand) (s : State) : Result :=
  run2 a b s fun a b s =>
    match s.storeWord (numVal a) (numVal b) with
    | none => s.raise .addressOutOfRange
    | some t => t

end Sys2Proof.Machine
end

