-- ==== Sys2Proof/Machine/SystemIo.lean ====
section
/-! DEFINITION. Halt, Output, Input, NoOperation and the unrecognized opcode (spec/47_system_io.md). -/

namespace Sys2Proof.Machine

/-- Halt (R115). -/
def execHalt (s : State) : Result := .next s.setHalt

/-- Output a (R116). -/
def execOutput (a : Operand) (s : State) : Result :=
  run1 a s fun a s => s.emit (numVal a)

/-- The Execute phase of an Input whose operand is resolved (R117): with a word there it takes it and, under a register
destination, stores it; with none it waits, its Number in the latch (40_cycle_fetch_decode.md R75, S_WAIT_IN; log 6). -/
def takeInput (a : Number) (s : State) : State :=
  match s.input with
  | [] => s.setInput [] (some a)
  | v :: vs => writeDest a v (s.setInput vs none)

/-- Input a (R117). -/
def execInput (a : Operand) (s : State) : Result :=
  run1 a s takeInput

/-- NoOperation (R118). -/
def execNoOperation (s : State) : Result := .next s

/-- The unrecognized opcode (R119): InvalidOpcode is recorded and nothing else changes, whatever the word. -/
def execUnrecognizedOpcode (_w : Word) (s : State) : Result := .next (s.raise .invalidOpcode)

end Sys2Proof.Machine
end

