-- ==== Sys2Proof/Machine/Dispatch.lean ====
section
/-! DEFINITION. The opcode dispatch multiplexer (spec/40_cycle_fetch_decode.md R70): one arm per instruction. -/

namespace Sys2Proof.Machine

def exec (i : Instr) (s : State) : Host.Outcome State Fault Refusal :=
  match i with
  | .halt => Sys2Proof.Machine.execHalt s
  | .set a b => Sys2Proof.Machine.execSet a b s
  | .push a => Sys2Proof.Machine.execPush a s
  | .pop a => Sys2Proof.Machine.execPop a s
  | .equalTo a b c => Sys2Proof.Machine.execEqualTo a b c s
  | .greaterThan a b c => Sys2Proof.Machine.execGreaterThan a b c s
  | .jumpTo a => Sys2Proof.Machine.execJumpTo a s
  | .jumpToIfNotZero a b => Sys2Proof.Machine.execJumpToIfNotZero a b s
  | .jumpToIfZero a b => Sys2Proof.Machine.execJumpToIfZero a b s
  | .add a b c => Sys2Proof.Machine.execAdd a b c s
  | .multiply a b c => Sys2Proof.Machine.execMultiply a b c s
  | .modulous a b c => Sys2Proof.Machine.execModulous a b c s
  | .and a b c => Sys2Proof.Machine.execAnd a b c s
  | .or a b c => Sys2Proof.Machine.execOr a b c s
  | .not a b => Sys2Proof.Machine.execNot a b s
  | .readMemory a b => Sys2Proof.Machine.execReadMemory a b s
  | .writeMemory a b => Sys2Proof.Machine.execWriteMemory a b s
  | .call a => Sys2Proof.Machine.execCall a s
  | .ret => Sys2Proof.Machine.execReturn s
  | .output a => Sys2Proof.Machine.execOutput a s
  | .input a => Sys2Proof.Machine.execInput a s
  | .noOperation => Sys2Proof.Machine.execNoOperation s
  | .unrecognizedOpcode w => Sys2Proof.Machine.execUnrecognizedOpcode w s

end Sys2Proof.Machine
end

