-- ==== Sys2Proof/Machine/Fetch.lean ====
section
/-! DEFINITION. Fetch (spec/40_cycle_fetch_decode.md R61 to R69): the ceiling check, the opcode and operand reads, the pc
advance, and the debug exposure point. -/

namespace Sys2Proof.Machine

/-- The opcode word at pc (R62). -/
def fetchOpcode (s : State) : Word := s.mem.readWord s.pc.toNat

/-- The operand count of the opcode word at pc (R63). -/
def fetchCount (s : State) : Nat := operandCount s.cfg.opcodes (fetchOpcode s)

/-- The instruction at pc, its operand words at pc + 1, pc + 2, pc + 3 (R65). -/
def fetchInstr (s : State) : Instr :=
  instrOfWords s.cfg.opcodes (fetchOpcode s) fun k => s.mem.readWord (s.pc.toNat + k)

/-- What the debug port shows of an instruction (60_exceptions.md R145): the Numbers are those Execute is given. -/
def debugEntry (i : Instr) (s : State) : DebugEntry :=
  { opcode := i.opcodeWord s.cfg.opcodes, numbers := (resolveAll i.operands s).1, regs := s.regs, stack := s.stack }

/-- The debug exposure point (R69): a record if the trace is enabled, and no other change. -/
def expose (i : Instr) (s : State) : State :=
  if s.debugOn then { s with trace := s.trace ++ [debugEntry i s] } else s

/-- What Fetch ends with. -/
inductive Fetched where
  /-- an instruction for Execute, and the state it runs on -/
  | run (i : Instr) (s : State)
  /-- the cycle ends without Execute (R64) -/
  | ended (s : State)
  /-- pc is below the ceiling and outside the memory: the parameters break 00_scope.md R3 (log 23) -/
  | noOpcode
  deriving DecidableEq, Repr

/-- Fetch. At or above PC_CEILING: a Halt is synthesized, nothing is read, pc stays (R61). Operand words that do not exist:
FetchOutOfRange, pc advanced, no Execute (R64). Otherwise the instruction at pc, with pc advanced past it (R68). -/
def fetch (s : State) : Fetched :=
  if s.cfg.pcCeiling ≤ s.pc.toNat then .run .halt (expose .halt s)
  else if s.cfg.memWords ≤ s.pc.toNat then .noOpcode
  else if 0 < fetchCount s ∧ s.cfg.memWords ≤ s.pc.toNat + fetchCount s then
    .ended ((s.advancePc (fetchCount s)).raise .fetchOutOfRange)
  else .run (fetchInstr s) (expose (fetchInstr s) (s.advancePc (fetchCount s)))

end Sys2Proof.Machine
end

