-- ==== Sys2Proof/Machine/Step.lean ====
section
/-! DEFINITION. One step: one cycle of the driver (spec/40_cycle_fetch_decode.md R60, R72), or the rest of one that an Input's
wait holds open. -/

namespace Sys2Proof.Machine

/-- A waiting Input goes on first (R74, R78: a cycle in progress is not interrupted); a terminal state stays as it is (R60,
log 5); otherwise Fetch, then Execute. -/
def step (s : State) : Host.Outcome State Fault Refusal :=
  match s.waiting with
  | some a => .next (takeInput a s)
  | none =>
    if s.terminal then .next s
    else
      match fetch s with
      | .run i t => exec i t
      | .ended t => .next t
      | .noOpcode => .fault .opcodeOutsideMemory

/-- The state with an instruction's bits stored where `step` fetches its next instruction: four words at pc (the longest
instruction), as far as memory reaches. It stands for the loader's work (log 27). -/
def State.withFetchWord (s : State) (nbits w : Nat) : State :=
  s.setMem (s.mem.writeBytes (2 * s.pc.toNat) ((bytesOfNat 8 (w % 2 ^ nbits)).take (s.cfg.memBytes - 2 * s.pc.toNat)))

end Sys2Proof.Machine
end

