-- ==== Sys2Proof/Machine/Env.lean ====
section
/-! DEFINITION. What the host can do to the machine (spec/70_reset_and_hazards.md R150, R152, R159; 20_memory.md R35;
47_system_io.md R117). None of these is a step of the core. -/

namespace Sys2Proof.Machine

/-- Reset at any time (R150): the cycle in progress and its latch are discarded, registers, stack, pc, halt and err take
their reset values, and memory is not cleared. What the environment holds stays (log 22). -/
def State.rst (s : State) : State :=
  { s with regs := State.reset.regs, stack := State.reset.stack, pc := State.reset.pc, halt := State.reset.halt,
           err := State.reset.err, waiting := State.reset.waiting }

/-- Load, then reset (R152, R153): the image bytes from byte 0 and zeros up to MEM_BYTES, with the words the host will
supply and its choice of the debug trace. An image longer than MEM_BYTES is refused (20_memory.md R35). -/
def launch (image : List Byte) (inputs : List Word) (debug : Bool) (s : State) : Result :=
  if s.cfg.memBytes < image.length then .refused .imageTooLong
  else .next { s.rst with mem := Memory.ofBytes 0 image, input := inputs, output := [], debugOn := debug, trace := [] }

/-- The host supplies one word to a waiting Input (R117, R159); it has no such move at another time. -/
def State.deliver (s : State) (v : Word) : Option State :=
  match s.waiting, s.input with
  | some a, [] => some (s.setInput [v] (some a))
  | _, _ => none

end Sys2Proof.Machine
end

