-- ==== Sys2Proof/Safety.lean ====
section
/-! DEFINITION. How a run ends (spec/60_exceptions.md R146, 70_reset_and_hazards.md R154), and the invariants of the machine. -/

namespace Sys2Proof.Machine

/-- The terminal state errored; if both flags were ever set, errored it is (R146). -/
def State.errored (s : State) : Bool := s.err != .none

/-- The terminal state halted (R146). -/
def State.halted (s : State) : Bool := s.halt && !s.errored

/-- The run succeeded: halt = 1 and err = None (70_reset_and_hazards.md R154). -/
def State.succeeded (s : State) : Bool := s.halt && (s.err == .none)

/-- Stuck in an Input that no word completes: neither halted nor errored by it (47_system_io.md R117). -/
def State.stuckInInput (s : State) : Bool := s.waiting.isSome && s.input.isEmpty

/-- Memory holds bytes only at addresses that exist, in the canonical form. -/
abbrev State.memInv (s : State) : Prop := s.mem.wf ∧ ∀ c ∈ s.mem, c.1 < s.cfg.memBytes

/-- The stack never holds more than a finite STACK_DEPTH (10_state.md R26). -/
abbrev State.stackInv (s : State) : Prop := ∀ d ∈ s.cfg.stackDepth, s.stack.length ≤ d

/-- halt and err are never both set (60_exceptions.md R146), and an Input waits only in a cycle that has neither halted nor
raised anything but Fetch's DecodeError (40_cycle_fetch_decode.md R60, R74). -/
abbrev State.statusInv (s : State) : Prop :=
  (s.halt = true → s.err = .none) ∧
  (s.waiting ≠ none → s.halt = false ∧ (s.err = .none ∨ s.err = .decodeError))

/-- The invariant of the machine: usable parameters and the three above. -/
abbrev State.Inv (s : State) : Prop := s.cfg.wf ∧ s.memInv ∧ s.stackInv ∧ s.statusInv

/-- A word in the normal range (10_state.md R12). -/
abbrev inRange (w : Word) : Prop := w.toNat ≤ litMax

/-- Every register and every stack entry is in the normal range (10_state.md R12). -/
abbrev State.RangeInv (s : State) : Prop := (∀ i : RegIndex, inRange (s.getReg i)) ∧ ∀ v ∈ s.stack, inRange v

end Sys2Proof.Machine
end

