-- ==== Sys2Proof/Certificates/Slice0/Obligations.lean ====
section
/-! DEFINITION. The statements for the provers. They are written from the numbered rules of spec/, over every state, unless the
docstring says that a clause is a decision of the spec (a "D" of 92_eei_decisions.md) or the model's own choice. In every
statement about `exec` the pc has already been advanced past the instruction (40_cycle_fetch_decode.md R68). -/

namespace Sys2Proof.Machine

/-! Words the statements use. -/

/-- The operand gives this value in this state (30_encoding.md R48, 40_cycle_fetch_decode.md R66): a literal its own, a
register reference the register's content; an invalid operand none. -/
def Carries (s : State) : Operand → Word → Prop
  | .lit l, v => v.toNat = l.toNat
  | .reg r, v => v = s.regs[r]
  | .invalid _, _ => False

/-- The Number of a legal operand in this state (10_state.md R20). -/
def SeenAs (s : State) : Operand → Number → Prop
  | .lit l, n => ∃ v : Word, v.toNat = l.toNat ∧ n = .lit v
  | .reg r, n => n = .reg r s.regs[r]
  | .invalid _, _ => False

/-- The state with a value stored into a destination operand: the register named, and nothing under a literal (R73). -/
def Into (s : State) (a : Operand) (v : Word) : State :=
  match a with
  | .reg r => { s with regs := s.regs.set r v }
  | .lit _ => s
  | .invalid _ => s

/-- The instruction's words are the opcode's number and then its operands' words in order, whatever the numbering
(30_encoding.md R46). -/
def Format (i : Instr) (o : Op) (args : List Operand) : Prop :=
  ∀ t : OpcodeTable, encodeWords t i = t.numberOf o :: args.map Operand.word

/-- The stack is not at a finite STACK_DEPTH (10_state.md R26). -/
def RoomOnStack (s : State) : Prop := ∀ d, s.cfg.stackDepth = some d → s.stack.length < d

/-- The state with a condition recorded, the first one kept (60_exceptions.md R131). -/
def Recorded (s : State) (e : Err) : State := { s with err := if s.err = .none then e else s.err }

/-- Two states that differ in the debug trace alone (60_exceptions.md R145). -/
def SameButTrace (s t : State) : Prop := t = { s with debugOn := t.debugOn, trace := t.trace }

/-- The instructions of a list executed one after the other (Execute alone: nothing is fetched). -/
def execAll : List Instr → State → Result
  | [], s => .next s
  | i :: is, s =>
    match exec i s with
    | .next t => execAll is t
    | .fault r => .fault r
    | .refused r => .refused r

/-- What a number of Pops into one register yield, in order. -/
def popsInto (r : RegIndex) : Nat → State → Option (List Word)
  | 0, _ => some []
  | n + 1, s =>
    match exec (.pop (.reg r)) s with
    | .next t => (popsInto r n t).map fun vs => t.regs[r] :: vs
    | _ => none

end Sys2Proof.Machine

open Sys2Proof Sys2Proof.Machine

/-! ## Encoding -/

/-- 30_encoding.md R48 and 40_cycle_fetch_decode.md R66: the three ranges, the same decision in bits, the document's three
cases; what the resolver gives (a literal itself, a register reference its register's content, and the state untouched; an
invalid word a decode error, with registers, memory, stack and pc untouched); the same decision in every operand position;
and an opcode word that is no opcode stays an unrecognized opcode whatever operand it looks like. -/
def Obligations.OperandWordKinds : Prop :=
  (∀ w : Word, w.toNat ≤ 32767 → ∃ v, decodeOperand w = .lit v ∧ v.toNat = w.toNat) ∧
  (∀ w : Word, 32768 ≤ w.toNat → w.toNat ≤ 32775 → ∃ r, decodeOperand w = .reg r ∧ r.val = w.toNat - 32768) ∧
  (∀ w : Word, 32776 ≤ w.toNat → decodeOperand w = .invalid w) ∧
  (∀ w : Word, (∃ v, decodeOperand w = .lit v) ↔ w.getLsbD 15 = false) ∧
  (∀ w : Word, (∃ r, decodeOperand w = .reg r) ↔ w.getLsbD 15 = true ∧ w.extractLsb' 3 12 = 0) ∧
  decodeOperand 32770 = .reg 2 ∧ decodeOperand 32767 = .lit 32767 ∧ decodeOperand 32776 = .invalid 32776 ∧
  (∀ (s : State) (w : Word), w.toNat ≤ 32775 →
    SeenAs s (decodeOperand w) (resolve (decodeOperand w) s).1 ∧ (resolve (decodeOperand w) s).2 = s) ∧
  (∀ (s : State) (w : Word), 32776 ≤ w.toNat → s.err = .none → (resolve (decodeOperand w) s).2.err = .decodeError) ∧
  (∀ (s : State) (o : Operand), (resolve o s).2.regs = s.regs ∧ (resolve o s).2.mem = s.mem ∧
    (resolve o s).2.stack = s.stack ∧ (resolve o s).2.pc = s.pc) ∧
  (∀ (t : OpcodeTable) (w : Word) (arg : Nat → Word),
    (instrOfWords t w arg).operands = (List.range (operandCount t w)).map fun k => decodeOperand (arg (k + 1))) ∧
  (∀ (t : OpcodeTable) (w : Word) (arg : Nat → Word), w ∉ t.map Prod.snd → instrOfWords t w arg = .unrecognizedOpcode w)

/-- 30_encoding.md R47: the groups by operand count, each of the 22 opcodes once. The count 0 of an unrecognized opcode is the
spec's decision D9. -/
def Obligations.OperandCountGroups : Prop :=
  (∀ o : Op, (o ∈ [Op.halt, .ret, .noOperation] ↔ o.arity = 0) ∧
    (o ∈ [Op.push, .pop, .jumpTo, .call, .output, .input] ↔ o.arity = 1) ∧
    (o ∈ [Op.set, .jumpToIfNotZero, .jumpToIfZero, .not, .readMemory, .writeMemory] ↔ o.arity = 2) ∧
    (o ∈ [Op.equalTo, .greaterThan, .add, .multiply, .modulous, .and, .or] ↔ o.arity = 3)) ∧
  Op.all.Nodup ∧ Op.all.length = 22 ∧ (∀ o : Op, o ∈ Op.all) ∧
  (∀ (t : OpcodeTable) (w : Word), w ∉ t.map Prod.snd → operandCount t w = 0)

/-- Words written out from 30_encoding.md R46, R48, R49, at least one instruction of every family. The opcode numbers are the
spec's decision D1 (log 1). -/
def Obligations.SampleWordsDecode : Prop :=
  decodeTableWord 48 0x000580000001 = some (.set (.reg 0) (.lit 5)) ∧
  decodeTableWord 32 0x80010002 = some (.push (.reg 1)) ∧
  decodeTableWord 32 0x80040003 = some (.pop (.reg 4)) ∧
  decodeTableWord 64 0x0007800180000004 = some (.equalTo (.reg 0) (.reg 1) (.lit 7)) ∧
  decodeTableWord 64 0x0003000580020005 = some (.greaterThan (.reg 2) (.lit 5) (.lit 3)) ∧
  decodeTableWord 32 0x00640006 = some (.jumpTo (.lit 100)) ∧
  decodeTableWord 48 0x003280000007 = some (.jumpToIfNotZero (.reg 0) (.lit 50)) ∧
  decodeTableWord 64 0x8001800080000009 = some (.add (.reg 0) (.reg 0) (.reg 1)) ∧
  decodeTableWord 48 0x00008000000E = some (.not (.reg 0) (.lit 0)) ∧
  decodeTableWord 48 0x00648000000F = some (.readMemory (.reg 0) (.lit 100)) ∧
  decodeTableWord 48 0x004D80010010 = some (.writeMemory (.reg 1) (.lit 77)) ∧
  decodeTableWord 32 0x00640011 = some (.call (.lit 100)) ∧
  decodeTableWord 16 0x0012 = some .ret ∧
  decodeTableWord 32 0x00410013 = some (.output (.lit 65)) ∧
  decodeTableWord 16 0x0000 = some .halt ∧
  decodeTableWord 16 0x0016 = some (.unrecognizedOpcode 22) ∧
  decodeTableWord 16 0x8000 = some (.unrecognizedOpcode 32768) ∧
  decodeTableWord 48 0x800880000001 = some (.set (.reg 0) (.invalid 32776))

/-- Decode after encode, for every instruction, every operand value and every usable opcode numbering (30_encoding.md R46,
R48, R49, R54). -/
def Obligations.DecodeAfterEncode : Prop :=
  ∀ (t : OpcodeTable) (i : Instr) (rest : List Byte), t.wf → i.wf t = true → decode t (encode t i ++ rest) = .ok (i, rest)

/-- Encode after decode: the decoder drops no bit, and answers well-formed instructions only (30_encoding.md R46, R54). -/
def Obligations.EncodeAfterDecode : Prop :=
  ∀ (t : OpcodeTable) (bs : List Byte) (i : Instr) (rest : List Byte),
    t.wf → decode t bs = .ok (i, rest) → bs = encode t i ++ rest ∧ i.wf t = true

/-- The decoder is total: it refuses only bytes that end before the instruction does (30_encoding.md R54). -/
def Obligations.DecodeRefusesOnlyShortInput : Prop :=
  ∀ (t : OpcodeTable) (bs : List Byte),
    (decode t bs = .error .noOpcodeWord ↔ bs.length < 2) ∧
    (decode t bs = .error .missingOperandWord ↔
      2 ≤ bs.length ∧ bs.length < 2 * (1 + operandCount t (wordAt bs 0)))

/-! ## Memory -/

/-- 20_memory.md R31, with R33's words on what a write changes, on memories in the model's canonical form: a word is low byte
plus 256 times high byte, for data and for the opcode fetched, and a write sets those two bytes and no other. -/
def Obligations.MemoryIsLittleEndian : Prop :=
  (∀ (m : Memory) (w : Nat), (m.readWord w).toNat = (m.readByte (2 * w)).toNat + 256 * (m.readByte (2 * w + 1)).toNat) ∧
  (∀ s : State, (fetchOpcode s).toNat =
    (s.mem.readByte (2 * s.pc.toNat)).toNat + 256 * (s.mem.readByte (2 * s.pc.toNat + 1)).toNat) ∧
  (∀ (m : Memory) (w : Nat) (v : Word), m.wf →
    ((m.writeWord w v).readByte (2 * w)).toNat = v.toNat % 256 ∧
    ((m.writeWord w v).readByte (2 * w + 1)).toNat = v.toNat / 256 ∧
    (∀ a, a ≠ 2 * w → a ≠ 2 * w + 1 → (m.writeWord w v).readByte a = m.readByte a) ∧
    (m.writeWord w v).readWord w = v ∧ (m.writeWord w v).wf)

/-- Equal memories are equal data: two memories in the canonical form that read the same everywhere are the same list (the
model's representation of 20_memory.md R30). -/
def Obligations.CanonicalMemoryIsUnique : Prop :=
  ∀ m n : Memory, m.wf → n.wf → (∀ a, m.readByte a = n.readByte a) → m = n

/-! ## Data movement and stack -/

/-- 41_data_stack.md R80: Set copies the source unchanged; under a literal destination nothing is written. Its format too (the
opcode's number is whatever the numbering says). The clause on an invalid operand is no part of what R80 alone says: sticky
is the spec's decision D7, executing with an arbitrary Number its D8 (a model may stop instead), and that the error is
recorded as `exec` takes the operands is the model's (log 7, log 8). -/
def Obligations.SetCopiesSource : Prop :=
  (∀ (s : State) (a b : Operand) (p : Word), a.legal = true → Carries s b p → exec (.set a b) s = .next (Into s a p)) ∧
  (∀ (s : State) (a b : Operand), (Instr.set a b).legal = false → s.err = .none →
    ∃ t, exec (.set a b) s = .next t ∧ t.err = .decodeError) ∧
  (∀ a b, Format (.set a b) .set [a, b])

/-- 41_data_stack.md R81: Push pushes the value; with a finite STACK_DEPTH reached (the spec's decision D14) it records
StackOverflow and pushes nothing. -/
def Obligations.PushPushesOrOverflows : Prop :=
  (∀ (s : State) (a : Operand) (p : Word), Carries s a p → RoomOnStack s →
    exec (.push a) s = .next { s with stack := p :: s.stack }) ∧
  (∀ (s : State) (a : Operand) (d : Nat), a.legal = true → s.cfg.stackDepth = some d → d ≤ s.stack.length →
    exec (.push a) s = .next (Recorded s .stackOverflow)) ∧
  (∀ a, Format (.push a) .push [a])

/-- 41_data_stack.md R82: Pop moves the top into a register; on an empty stack or under a literal destination nothing
happens at all. Its format too. -/
def Obligations.PopTakesTop : Prop :=
  (∀ (s : State) (r : RegIndex) (v : Word) (st : List Word), s.stack = v :: st →
    exec (.pop (.reg r)) s = .next { s with stack := st, regs := s.regs.set r v }) ∧
  (∀ (s : State) (r : RegIndex), s.stack = [] → exec (.pop (.reg r)) s = .next s) ∧
  (∀ (s : State) (l : BitVec 15), exec (.pop (.lit l)) s = .next s) ∧
  (∀ a, Format (.pop a) .pop [a])

/-- The round trip of 41_data_stack.md R82 and 10_state.md R16, for every sequence: as many Pops as Pushes give the values in
reverse order of pushing and leave the stack as it was, with the document's unbounded stack. -/
def Obligations.PushesThenPopsReverse : Prop :=
  ∀ (s : State) (r : RegIndex) (vs : List (BitVec 15)), s.cfg.stackDepth = none →
    ∃ t, execAll (vs.map fun v => .push (.lit v)) s = .next t ∧
      t = { s with stack := (vs.reverse.map fun v => v.setWidth 16) ++ s.stack } ∧
      popsInto r vs.length t = some (vs.reverse.map fun v => v.setWidth 16) ∧
      ∃ u, execAll (vs.map fun _ => .pop (.reg r)) t = .next u ∧ u.stack = s.stack

/-! ## Comparison -/

/-- 42_compare.md R85 and R86: 1 or 0 into the destination, on the full unsigned 16-bit values; nothing under a literal
destination. Their formats too. -/
def Obligations.ComparisonsWriteOneOrZero : Prop :=
  (∀ (s : State) (a b c : Operand) (p q : Word), a.legal = true → Carries s b p → Carries s c q →
    (p.toNat = q.toNat → exec (.equalTo a b c) s = .next (Into s a 1)) ∧
    (p.toNat ≠ q.toNat → exec (.equalTo a b c) s = .next (Into s a 0)) ∧
    (p.toNat > q.toNat → exec (.greaterThan a b c) s = .next (Into s a 1)) ∧
    (p.toNat ≤ q.toNat → exec (.greaterThan a b c) s = .next (Into s a 0))) ∧
  (∀ a b c, Format (.equalTo a b c) .equalTo [a, b, c] ∧ Format (.greaterThan a b c) .greaterThan [a, b, c])

/-! ## Jumps -/

/-- 43_jumps.md R90, R91, R92: the pc takes the target, always, or when the condition operand is not zero, or when it is zero,
and else nothing changes. Their formats too. -/
def Obligations.JumpsSetPc : Prop :=
  (∀ (s : State) (a : Operand) (p : Word), Carries s a p → exec (.jumpTo a) s = .next { s with pc := p }) ∧
  (∀ (s : State) (a b : Operand) (p q : Word), Carries s a p → Carries s b q →
    (p.toNat ≠ 0 → exec (.jumpToIfNotZero a b) s = .next { s with pc := q } ∧ exec (.jumpToIfZero a b) s = .next s) ∧
    (p.toNat = 0 → exec (.jumpToIfNotZero a b) s = .next s ∧ exec (.jumpToIfZero a b) s = .next { s with pc := q })) ∧
  (∀ a b, Format (.jumpTo a) .jumpTo [a] ∧ Format (.jumpToIfNotZero a b) .jumpToIfNotZero [a, b] ∧
    Format (.jumpToIfZero a b) .jumpToIfZero [a, b])

/-! ## Arithmetic and logic -/

/-- 44_arith_logic.md R98 and R99: the sum and the product modulo 32768; nothing under a literal destination, never an error.
Their formats too. -/
def Obligations.AddMultiplyModulo : Prop :=
  (∀ (s : State) (a b c : Operand) (p q : Word), a.legal = true → Carries s b p → Carries s c q →
    (∃ v : Word, v.toNat = (p.toNat + q.toNat) % 32768 ∧ exec (.add a b c) s = .next (Into s a v)) ∧
    (∃ v : Word, v.toNat = (p.toNat * q.toNat) % 32768 ∧ exec (.multiply a b c) s = .next (Into s a v))) ∧
  (∀ a b c, Format (.add a b c) .add [a, b, c] ∧ Format (.multiply a b c) .multiply [a, b, c])

/-- 44_arith_logic.md R96: reducing after a truncation to 16 bits (Add) or to 16 or 32 bits (Multiply) gives the same result,
and the result is in range, whatever the inputs. -/
def Obligations.TruncateThenReduceAgrees : Prop :=
  ∀ p q : Word,
    (add15 p q).toNat = ((p.toNat + q.toNat) % 65536) % 32768 ∧
    (mul15 p q).toNat = ((p.toNat * q.toNat) % 65536) % 32768 ∧
    (mul15 p q).toNat = ((p.toNat * q.toNat) % 4294967296) % 32768 ∧
    add15 p q = (p + q) &&& 0x7FFF#16 ∧ mul15 p q = (p * q) &&& 0x7FFF#16 ∧
    (add15 p q).toNat ≤ 32767 ∧ (mul15 p q).toNat ≤ 32767

/-- 44_arith_logic.md R100: the unsigned remainder; under a register destination a zero divisor records DivideByZero and
writes nothing (the spec's decision D10); under a literal destination nothing happens, whatever the divisor. -/
def Obligations.ModulousRemainderOrError : Prop :=
  (∀ (s : State) (a b c : Operand) (p q : Word), a.legal = true → Carries s b p → Carries s c q → q.toNat ≠ 0 →
    ∃ v : Word, v.toNat < q.toNat ∧ p.toNat = q.toNat * (p.toNat / q.toNat) + v.toNat ∧
      exec (.modulous a b c) s = .next (Into s a v)) ∧
  (∀ (s : State) (r : RegIndex) (b c : Operand) (q : Word), b.legal = true → Carries s c q → q.toNat = 0 →
    exec (.modulous (.reg r) b c) s = .next (Recorded s .divideByZero)) ∧
  (∀ (s : State) (l : BitVec 15) (b c : Operand), b.legal = true → c.legal = true →
    exec (.modulous (.lit l) b c) s = .next s) ∧
  (∀ a b c, Format (.modulous a b c) .modulous [a, b, c])

/-- 44_arith_logic.md R101, R102, R103: bit by bit on 16 bits; Not inverts bits 14..0 and leaves bit 15; nothing under a
literal destination. Their formats too. -/
def Obligations.LogicIsBitwise : Prop :=
  (∀ (s : State) (a b c : Operand) (p q : Word), a.legal = true → Carries s b p → Carries s c q →
    (∃ v : Word, (∀ k < 16, v.getLsbD k = (p.getLsbD k && q.getLsbD k)) ∧ exec (.and a b c) s = .next (Into s a v)) ∧
    (∃ v : Word, (∀ k < 16, v.getLsbD k = (p.getLsbD k || q.getLsbD k)) ∧ exec (.or a b c) s = .next (Into s a v)) ∧
    (∃ v : Word, (∀ k < 15, v.getLsbD k = !p.getLsbD k) ∧ v.getLsbD 15 = p.getLsbD 15 ∧
      exec (.not a b) s = .next (Into s a v))) ∧
  (∀ a b c, Format (.and a b c) .and [a, b, c] ∧ Format (.or a b c) .or [a, b, c] ∧ Format (.not a b) .not [a, b])

/-- 44_arith_logic.md R97: Not applied twice to one register gives the state back, for every 16-bit content. -/
def Obligations.NotTwiceRestores : Prop :=
  ∀ (s : State) (r : RegIndex),
    ∃ t, exec (.not (.reg r) (.reg r)) s = .next t ∧ exec (.not (.reg r) (.reg r)) t = .next s

/-! ## Memory access -/

/-- 45_memory_access.md R105: the whole word at the address, read with its low byte first, into the register; out of range
(the spec's decision D11) AddressOutOfRange and no write; under a literal destination nothing, whatever the address. -/
def Obligations.ReadMemoryLoadsWord : Prop :=
  (∀ (s : State) (r : RegIndex) (b : Operand) (w : Word), Carries s b w → w.toNat < s.cfg.memWords →
    ∃ v : Word, v.toNat = (s.mem.readByte (2 * w.toNat)).toNat + 256 * (s.mem.readByte (2 * w.toNat + 1)).toNat ∧
      exec (.readMemory (.reg r) b) s = .next { s with regs := s.regs.set r v }) ∧
  (∀ (s : State) (r : RegIndex) (b : Operand) (w : Word), Carries s b w → s.cfg.memWords ≤ w.toNat →
    exec (.readMemory (.reg r) b) s = .next (Recorded s .addressOutOfRange)) ∧
  (∀ (s : State) (l : BitVec 15) (b : Operand), b.legal = true → exec (.readMemory (.lit l) b) s = .next s) ∧
  (∀ a b, Format (.readMemory a b) .readMemory [a, b])

/-- 45_memory_access.md R106: the value's two bytes at twice the address, every other byte as before, nothing else changed; a
literal and a register are an address alike; out of range (the spec's decision D11) AddressOutOfRange and no write. -/
def Obligations.WriteMemoryStoresWord : Prop :=
  (∀ (s : State) (a b : Operand) (w v : Word), s.mem.wf → Carries s a w → Carries s b v → w.toNat < s.cfg.memWords →
    ∃ m : Memory, exec (.writeMemory a b) s = .next { s with mem := m } ∧ m.wf ∧
      (m.readByte (2 * w.toNat)).toNat = v.toNat % 256 ∧ (m.readByte (2 * w.toNat + 1)).toNat = v.toNat / 256 ∧
      ∀ x, x ≠ 2 * w.toNat → x ≠ 2 * w.toNat + 1 → m.readByte x = s.mem.readByte x) ∧
  (∀ (s : State) (a b : Operand) (w : Word), Carries s a w → b.legal = true → s.cfg.memWords ≤ w.toNat →
    exec (.writeMemory a b) s = .next (Recorded s .addressOutOfRange)) ∧
  (∀ a b, Format (.writeMemory a b) .writeMemory [a, b])

/-- 20_memory.md R42: a word stored is what the next fetch reads, as an opcode word or as the k-th operand word, and what is
decoded there. -/
def Obligations.StoreSeenByNextFetch : Prop :=
  ∀ (s : State) (a b : Operand) (w v : Word), s.mem.wf → Carries s a w → Carries s b v → w.toNat < s.cfg.memWords →
    ∃ t, exec (.writeMemory a b) s = .next t ∧
      fetchOpcode { t with pc := w } = v ∧
      (∀ (pc : Word) (k : Nat), 1 ≤ k → k ≤ fetchCount { t with pc := pc } → pc.toNat + k = w.toNat →
        (fetchInstr { t with pc := pc }).operands[k - 1]? = some (decodeOperand v)) ∧
      (v ∉ s.cfg.opcodes.map Prod.snd → fetchInstr { t with pc := w } = .unrecognizedOpcode v)

/-! ## Subroutines -/

/-- 46_call_return.md R110: the advanced pc is pushed and the target taken; with a finite STACK_DEPTH reached (the spec's
decision D14) StackOverflow, nothing pushed, no jump. -/
def Obligations.CallPushesAndJumps : Prop :=
  (∀ (s : State) (a : Operand) (p : Word), Carries s a p → RoomOnStack s →
    exec (.call a) s = .next { s with stack := s.pc :: s.stack, pc := p }) ∧
  (∀ (s : State) (a : Operand) (d : Nat), a.legal = true → s.cfg.stackDepth = some d → d ≤ s.stack.length →
    exec (.call a) s = .next (Recorded s .stackOverflow)) ∧
  (∀ a, Format (.call a) .call [a])

/-- 46_call_return.md R111: Return takes the top as pc, whatever pushed it; on an empty stack it sets halt and changes nothing
else. Its format too. -/
def Obligations.ReturnPopsOrHalts : Prop :=
  (∀ (s : State) (v : Word) (st : List Word), s.stack = v :: st → exec .ret s = .next { s with stack := st, pc := v }) ∧
  (∀ s : State, s.stack = [] → exec .ret s = .next { s with halt := true }) ∧
  Format .ret .ret []

/-- The document's property in 46_call_return.md R110: a Return that finds the stack as the Call left it gives back the pc
after the Call and the stack before it, whatever else the subroutine changed. -/
def Obligations.CallThenReturnRestores : Prop :=
  ∀ (s : State) (a : Operand) (p : Word), Carries s a p → RoomOnStack s →
    ∃ t, exec (.call a) s = .next t ∧ t.pc = p ∧
      ∀ u : State, u.stack = t.stack → exec .ret u = .next { u with stack := s.stack, pc := s.pc }

/-! ## System and I/O -/

/-- 47_system_io.md R115 and R118: Halt sets the halt flag and changes nothing else; NoOperation changes nothing. Their
formats too. -/
def Obligations.HaltAndNoOperation : Prop :=
  (∀ s : State, exec .halt s = .next { s with halt := true }) ∧ (∀ s : State, exec .noOperation s = .next s) ∧
  Format .halt .halt [] ∧ Format .noOperation .noOperation []

/-- 47_system_io.md R116 with 10_state.md R22: the value, whole, is appended to the output sequence, and nothing else changes.
That all 16 bits are handed over and Output never waits is the spec's decision D18. -/
def Obligations.OutputAppendsValue : Prop :=
  (∀ (s : State) (a : Operand) (p : Word), Carries s a p → exec (.output a) s = .next { s with output := s.output ++ [p] }) ∧
  (∀ a, Format (.output a) .output [a])

/-- 47_system_io.md R117: with a word there, exactly one is consumed, stored whole under a register destination and dropped
under a literal one; nothing is echoed (the spec's decision D17). The clause on `waiting` is the model's latch (log 6). -/
def Obligations.InputTakesOneWord : Prop :=
  (∀ (s : State) (a : Operand) (v : Word) (vs : List Word), a.legal = true → s.waiting = none → s.input = v :: vs →
    exec (.input a) s = .next (Into { s with input := vs } a v)) ∧
  (∀ a, Format (.input a) .input [a])

/-- 47_system_io.md R117, 40_cycle_fetch_decode.md R75 and R78: with no word there the machine waits, its Number in the latch
(log 6), neither halted nor errored; steps change nothing until the host delivers a word, which the next step takes, and the
host has no such move when nothing waits (70_reset_and_hazards.md R159). -/
def Obligations.InputWaitsForDelivery : Prop :=
  (∀ (s : State) (a : Operand), a.legal = true → s.input = [] →
    ∃ n, SeenAs s a n ∧ exec (.input a) s = .next { s with waiting := some n }) ∧
  (∀ (s : State) (n : Number), s.waiting = some n → s.input = [] → step s = .next s) ∧
  (∀ (s : State) (n : Number) (v : Word), s.waiting = some n → s.input = [] →
    ∃ t, s.deliver v = some t ∧
      (∀ r x, n = .reg r x → step t = .next { s with regs := s.regs.set r v, waiting := none }) ∧
      (∀ x, n = .lit x → step t = .next { s with waiting := none })) ∧
  (∀ (s : State) (v : Word), s.waiting = none → s.deliver v = none)

/-- 47_system_io.md R119, the Execute part: InvalidOpcode is recorded and nothing else changes, whatever the word; the word is
the whole encoding. That the opcode has no operand and pc has moved past it is the spec's decision D9. -/
def Obligations.UnrecognizedOpcodeErrs : Prop :=
  (∀ (s : State) (w : Word), exec (.unrecognizedOpcode w) s = .next (Recorded s .invalidOpcode)) ∧
  (∀ (t : OpcodeTable) (w : Word), encodeWords t (.unrecognizedOpcode w) = [w])

/-! ## Rules of every instruction -/

/-- 40_cycle_fetch_decode.md R73: under a literal destination, with the other operands legal, every one of the twelve
instructions with a destination changes nothing, whatever the literal; Input alone still consumes its word (`waiting` is
the model's latch, log 6). -/
def Obligations.LiteralDestinationWritesNothing : Prop :=
  (∀ (i : Instr) (s : State) (l : BitVec 15), i.dest = some (.lit l) → i.legal = true → (∀ a, i ≠ .input a) →
    exec i s = .next s) ∧
  (∀ (s : State) (l : BitVec 15) (v : Word) (vs : List Word), s.waiting = none → s.input = v :: vs →
    exec (.input (.lit l)) s = .next { s with input := vs })

/-- 10_state.md R13: at most one register is written, only by an instruction with a destination operand, and then the one it
names; under a literal none. (An invalid destination stands for an arbitrary Number, R71.) -/
def Obligations.OnlyDestinationRegisterChanges : Prop :=
  ∀ (i : Instr) (s t : State), exec i s = .next t →
    (i.dest = none → t.regs = s.regs) ∧
    (∀ l, i.dest = some (.lit l) → t.regs = s.regs) ∧
    (∀ r, i.dest = some (.reg r) → ∃ v, t.regs = s.regs.set r v) ∧
    (∃ (r : RegIndex) (v : Word), t.regs = s.regs.set r v)

/-- 20_memory.md R36 with 45_memory_access.md R106: no instruction but WriteMemory changes memory; it changes at most the two
bytes of the word its first operand addresses, and none where that word does not exist (the spec's decision D11). The address
is computed as the meaning does, so an invalid operand is covered too, as its arbitrary Number (D8, log 7). -/
def Obligations.OnlyWriteMemoryChangesMemory : Prop :=
  ∀ (i : Instr) (s t : State), exec i s = .next t →
    ((∀ a b, i ≠ .writeMemory a b) → ∀ x, t.mem.readByte x = s.mem.readByte x) ∧
    (∀ (a b : Operand) (w : Word), i = .writeMemory a b → w = numVal (resolve a (resolve b s).2).1 →
      (w.toNat < s.cfg.memWords →
        ∀ x, x ≠ 2 * w.toNat → x ≠ 2 * w.toNat + 1 → t.mem.readByte x = s.mem.readByte x) ∧
      (s.cfg.memWords ≤ w.toNat → ∀ x, t.mem.readByte x = s.mem.readByte x))

/-- 10_state.md R16 and R17: the stack changes at its top only, by one entry, pushed by Push or Call, removed by Pop or
Return. -/
def Obligations.StackChangesAtTopOnly : Prop :=
  ∀ (i : Instr) (s t : State), exec i s = .next t →
    t.stack = s.stack ∨
    (∃ v, t.stack = v :: s.stack ∧ ((∃ a, i = .push a) ∨ ∃ a, i = .call a)) ∨
    (∃ v, s.stack = v :: t.stack ∧ ((∃ a, i = .pop a) ∨ i = .ret))

/-- 10_state.md R15: Execute writes the pc for the three jumps, Call and Return only. -/
def Obligations.OnlyControlFlowWritesPc : Prop :=
  ∀ (i : Instr) (s t : State), exec i s = .next t → t.pc ≠ s.pc →
    (∃ a, i = .jumpTo a) ∨ (∃ a b, i = .jumpToIfNotZero a b) ∨ (∃ a b, i = .jumpToIfZero a b) ∨ (∃ a, i = .call a) ∨
      (i = .ret ∧ s.stack ≠ [])

/-- 70_reset_and_hazards.md R157 with R116 and R117: a step appends at most one word to the output, at its end, and consumes
at most one word of the input, from its front; of the instructions only Output does the one and only Input the other. That Input
appends nothing to the output (no echo) is the spec's decision D17, an unsafe one (log 17). -/
def Obligations.ConsoleInProgramOrder : Prop :=
  (∀ s t : State, step s = .next t →
    (∃ o, t.output = s.output ++ o ∧ o.length ≤ 1) ∧ ∃ c, s.input = c ++ t.input ∧ c.length ≤ 1) ∧
  (∀ (i : Instr) (s t : State), exec i s = .next t →
    (t.output ≠ s.output → ∃ a, i = .output a) ∧ (t.input ≠ s.input → ∃ a, i = .input a))

/-- 10_state.md R18: halt is set by Halt, by Return on an empty stack, and by Fetch's ceiling check only; no step clears it;
once it is set no further cycle is issued (with no Input left open, log 6). -/
def Obligations.HaltFlagRule : Prop :=
  (∀ (i : Instr) (s t : State), exec i s = .next t → s.halt = false → t.halt = true →
    i = .halt ∨ (i = .ret ∧ s.stack = [])) ∧
  (∀ s t : State, step s = .next t → s.halt = false → t.halt = true →
    s.cfg.pcCeiling ≤ s.pc.toNat ∨ fetchInstr s = .halt ∨ (fetchInstr s = .ret ∧ s.stack = [])) ∧
  (∀ s : State, s.waiting = none → s.halt = false → s.err = .none → s.cfg.pcCeiling ≤ s.pc.toNat →
    ∃ t, step s = .next t ∧ t.halt = true) ∧
  (∀ s t : State, step s = .next t → s.halt = true → t.halt = true) ∧
  (∀ s : State, s.waiting = none → s.halt = true → step s = .next s)

/-- 10_state.md R18 and R24: no instruction reads the halt flag. With the flag set beforehand an instruction does all it does
without it. -/
def Obligations.NoInstructionReadsHalt : Prop :=
  ∀ (i : Instr) (s t : State), exec i s = .next t → exec i { s with halt := true } = .next { t with halt := true }

/-! ## Errors -/

/-- 60_exceptions.md R131, R137 and R143: an error once recorded is neither replaced nor cleared, by any instruction and by
any step. First-wins is the spec's decision D16. -/
def Obligations.FirstErrorStays : Prop :=
  (∀ (i : Instr) (s t : State), exec i s = .next t → s.err ≠ .none → t.err = s.err) ∧
  (∀ s t : State, step s = .next t → s.err ≠ .none → t.err = s.err)

/-- 60_exceptions.md R132 with 40_cycle_fetch_decode.md R67, R71: an instruction with an invalid operand is executed all the
same and ends errored with DecodeError, whatever the arbitrary Number does; halt is as before. Sticky is the spec's
decision D7, executing with an arbitrary Number its D8 (log 7, log 8). -/
def Obligations.InvalidOperandIsDecodeError : Prop :=
  ∀ (i : Instr) (s : State), i.legal = false → s.err = .none →
    ∃ t, exec i s = .next t ∧ t.err = .decodeError ∧ t.halt = s.halt ∧ t.cfg = s.cfg

/-- 60_exceptions.md R133 to R136, R139: with legal operands, which instructions record which condition, and in which states;
every other case leaves err as it was. The policies are the spec's decisions D10, D11, D14. -/
def Obligations.ErrorsHaveTheirCauses : Prop :=
  ∀ (i : Instr) (s t : State), i.legal = true → s.err = .none → exec i s = .next t → t.err ≠ .none →
    (t.err = .invalidOpcode ∧ ∃ w, i = .unrecognizedOpcode w) ∨
    (t.err = .divideByZero ∧ ∃ r b c, i = .modulous (.reg r) b c ∧ Carries s c 0) ∨
    (t.err = .addressOutOfRange ∧
      ((∃ r b w, i = .readMemory (.reg r) b ∧ Carries s b w ∧ s.cfg.memWords ≤ w.toNat) ∨
        ∃ a b w, i = .writeMemory a b ∧ Carries s a w ∧ s.cfg.memWords ≤ w.toNat)) ∨
    (t.err = .stackOverflow ∧ ((∃ a, i = .push a) ∨ ∃ a, i = .call a) ∧ ¬ RoomOnStack s)

/-- 60_exceptions.md R141: an instruction with legal operands that records an error has changed nothing else, pc included. -/
def Obligations.ErrorsArePrecise : Prop :=
  ∀ (i : Instr) (s t : State), i.legal = true → s.err = .none → exec i s = .next t → t.err ≠ .none →
    t = { s with err := t.err }

/-- 10_state.md R19: the 3-bit codes on the status interface, distinct, 7 never (the spec's decision D15). -/
def Obligations.StatusCodes : Prop :=
  (∀ s : State, s.status = (s.halt, s.err.code)) ∧
  [Err.none, .decodeError, .invalidOpcode, .divideByZero, .addressOutOfRange, .fetchOutOfRange, .stackOverflow].map Err.code =
    [0, 1, 2, 3, 4, 5, 6] ∧
  (∀ e f : Err, e.code = f.code → e = f) ∧ (∀ e : Err, e.code ≠ 7)

/-! ## The cycle -/

/-- 40_cycle_fetch_decode.md R60: a terminal state stays as it is, step after step (that `step` answers the same state is the
model's reading, log 5; with no Input left open, log 6). -/
def Obligations.TerminalStateStays : Prop :=
  ∀ (s : State) (n : Nat), s.waiting = none → (s.halt = true ∨ s.err ≠ .none) →
    step s = .next s ∧ Host.Core.run Sys2Proof.core n s = .next s

/-- 40_cycle_fetch_decode.md R61: at or above PC_CEILING nothing is read, halt is set, pc stays, and nothing else changes but
the debug record. The ceiling and the order are the spec's decisions D3 and D5. -/
def Obligations.CeilingHalts : Prop :=
  ∀ s : State, s.waiting = none → s.halt = false → s.err = .none → s.cfg.pcCeiling ≤ s.pc.toNat →
    ∃ t, step s = .next t ∧ t = { s with halt := true, trace := t.trace } ∧
      ∀ m : Memory, ∃ u, step { s with mem := m } = .next u ∧ u = { t with mem := m }

/-- 40_cycle_fetch_decode.md R64: an operand word outside the memory records FetchOutOfRange, pc moves past the instruction,
and nothing else changes (the spec's decision D6; no debug record, log 10). -/
def Obligations.MissingOperandIsFetchOutOfRange : Prop :=
  ∀ s : State, s.cfg.wf → s.waiting = none → s.halt = false → s.err = .none → s.pc.toNat < s.cfg.pcCeiling →
    0 < fetchCount s → s.cfg.memWords ≤ s.pc.toNat + fetchCount s →
    ∃ p : Word, p.toNat = s.pc.toNat + 1 + fetchCount s ∧ step s = .next { s with pc := p, err := .fetchOutOfRange }

/-- A step runs the decoded instruction (40_cycle_fetch_decode.md R60, R62 to R70): when the bytes at pc are an instruction's
encoding, all inside the memory, the step is that instruction executed with pc advanced past it and the debug record made. -/
def Obligations.StepRunsDecodedInstruction : Prop :=
  ∀ (s : State) (i : Instr), s.waiting = none → s.halt = false → s.err = .none →
    s.cfg.opcodes.wf → i.wf s.cfg.opcodes = true →
    s.pc.toNat < s.cfg.pcCeiling → s.pc.toNat + i.operands.length < s.cfg.memWords →
    (∀ k, k < (encode s.cfg.opcodes i).length →
      s.mem.readByte (2 * s.pc.toNat + k) = (encode s.cfg.opcodes i).getD k 0) →
    step s = exec i (expose i { s with pc := s.pc + BitVec.ofNat 16 (1 + i.operands.length) })

/-- 40_cycle_fetch_decode.md R68 with 10_state.md R15: with sizes that meet 00_scope.md R3 the advance is by 1 + n exactly
and never wraps. -/
def Obligations.PcAdvanceNeverWraps : Prop :=
  ∀ s : State, s.cfg.wf → s.pc.toNat < s.cfg.pcCeiling →
    (s.advancePc (fetchCount s)).pc.toNat = s.pc.toNat + 1 + fetchCount s ∧
    fetchCount s = (fetchInstr s).operands.length

/-- With sizes that meet 00_scope.md R3 every step answers a next state: no instruction and no fetch stops the model. Three
cases of it are the model's reading: a terminal state, where the spec says that no cycle begins (log 5); an Input with no
word, where it says that the cycle is not enabled (log 6); and an invalid operand, where the spec's decision D8 lets a model
execute with an arbitrary Number or stop (log 7). -/
def Obligations.EveryStepAnswersNext : Prop :=
  ∀ s : State, s.cfg.wf → ∃ t, step s = .next t

/-- What the host loads is what is run: from reset, the instruction the decoder reads from given bits is the instruction the
next step executes, with pc past it (the interface of log 27, with 70_reset_and_hazards.md R151). The
reset values are the spec's decision D13 (log 3), the opcode numbers its D1 (log 1). -/
def Obligations.LoadedWordRuns : Prop :=
  ∀ (nbits w : Nat) (i : Instr), decodeTableWord nbits w = some i →
    step (State.reset.withFetchWord nbits w) =
      exec i { State.reset.withFetchWord nbits w with pc := BitVec.ofNat 16 (1 + i.operands.length) }

/-! ## Reset and the host -/

/-- 10_state.md R23 and 70_reset_and_hazards.md R151: the state after reset. Registers, stack, pc, halt and err are the spec's
decision D13 (log 3), PC_CEILING = 32767 its D3 and MEM_WORDS = 32767 its D4 (log 19), the unbounded stack its D14 (log 15).
That memory has nothing placed in it and so reads 0 everywhere is the model's choice (log 4), as is the last line, for the
environment's fields (log 26). -/
def Obligations.ResetState : Prop :=
  (∀ r : RegIndex, State.reset.regs[r] = 0) ∧ State.reset.stack = [] ∧ State.reset.pc = 0 ∧ State.reset.halt = false ∧
  State.reset.err = .none ∧ State.reset.waiting = none ∧ (∀ a, State.reset.mem.readByte a = 0) ∧
  State.reset.cfg.memWords = 32767 ∧ State.reset.cfg.memBytes = 65534 ∧ State.reset.cfg.pcCeiling = 32767 ∧
  State.reset.cfg.stackDepth = none ∧
  State.reset.input = [] ∧ State.reset.output = [] ∧ State.reset.trace = [] ∧ State.reset.debugOn = false

/-- 70_reset_and_hazards.md R150: reset from any state gives registers, stack, pc, halt and err their reset values, empties the
latch, and leaves memory as it is (the spec's decision D13; what the environment holds stays, log 22). The first cycle
then fetches at word address 0. -/
def Obligations.ResetFromAnyState : Prop :=
  ∀ s : State,
    s.rst = { State.reset with cfg := s.cfg, mem := s.mem, input := s.input, output := s.output, debugOn := s.debugOn,
                               trace := s.trace, freeDraws := s.freeDraws } ∧
    fetchOpcode s.rst = s.mem.readWord 0 ∧ (s.Inv → s.rst.Inv ∧ s.rst.RangeInv)

/-- 20_memory.md R35 and 70_reset_and_hazards.md R152: a loaded image is read back byte for byte from byte 0 with zeros after
it, the parameters stay, and an image longer than MEM_BYTES is refused (the spec's decision D21, log 20). The values of
registers, stack, pc, halt and err the run starts from are the spec's decision D13 (log 3). That a launch takes the input and
the debug selection from the host and starts output and trace empty is the model's choice (log 22); the latch is log 6. -/
def Obligations.LaunchPlacesImage : Prop :=
  (∀ (image : List Byte) (inputs : List Word) (debug : Bool) (s : State), image.length ≤ s.cfg.memBytes →
    ∃ t, launch image inputs debug s = .next t ∧ (∀ a, t.mem.readByte a = image.getD a 0) ∧
      t.cfg = s.cfg ∧ t.input = inputs ∧ t.output = [] ∧ t.debugOn = debug ∧ t.trace = [] ∧ t.regs = State.reset.regs ∧ t.stack = [] ∧ t.pc = 0 ∧
      t.halt = false ∧ t.err = .none ∧ t.waiting = none ∧ (s.cfg.wf → t.Inv)) ∧
  (∀ (image : List Byte) (inputs : List Word) (debug : Bool) (s : State), s.cfg.memBytes < image.length →
    launch image inputs debug s = .refused .imageTooLong)

/-! ## Invariants of the machine -/

/-- The invariant holds at reset, and so does the register range. The reset values are the spec's decision D13 (log 3), the sizes
its D3 and D4 (log 19), the empty memory the model's choice (log 4). -/
def Obligations.ResetMeetsInvariants : Prop := State.reset.Inv ∧ State.reset.RangeInv

/-- Every step keeps the invariant (Safety.lean): usable parameters, memory in canonical form and inside MEM_BYTES
(20_memory.md R30), the stack within a finite STACK_DEPTH (10_state.md R26), halt and err never both set (60_exceptions.md
R146), and no Input waiting in a halted cycle. -/
def Obligations.StepKeepsInvariant : Prop :=
  ∀ s t : State, s.Inv → step s = .next t → t.Inv

/-- The conditional range invariant of 10_state.md R12, as a step: with MEM_WORDS at most 32767 (R110 case 4), if every input
word is in range, and what this step fetches, if it fetches (no Input left open, neither halted nor errored), has legal
operands and reads no out-of-range word of memory, then registers and stack entries stay in [0, 32767]. Legal operands are
asked for because an invalid one is an arbitrary Number (R71). -/
def Obligations.StepKeepsRange : Prop :=
  ∀ s t : State, s.cfg.wf → s.cfg.memWords ≤ 32767 → s.RangeInv → (∀ v ∈ s.input, inRange v) →
    (s.waiting = none → s.terminal = false → ∀ i u, fetch s = .run i u → i.legal = true ∧
      ∀ a b w, i = .readMemory a b → Carries s b w → w.toNat < s.cfg.memWords → inRange (s.mem.readWord w.toNat)) →
    step s = .next t → t.RangeInv

/-- 00_scope.md R2: no step changes a parameter, and no program can select the debug trace (60_exceptions.md R145). -/
def Obligations.ParametersNeverChange : Prop :=
  ∀ s t : State, step s = .next t → t.cfg = s.cfg ∧ t.debugOn = s.debugOn

/-! ## The debug trace -/

/-- 60_exceptions.md R145: the trace is read-only. Two states that differ in it alone step to states that differ in it alone,
so enabling it changes no architectural state and no instruction's behaviour, and a program cannot detect it. -/
def Obligations.DebugTraceIsReadOnly : Prop :=
  ∀ s t : State, SameButTrace s t →
    (∀ s', step s = .next s' → ∃ t', step t = .next t' ∧ SameButTrace s' t') ∧
    (∀ r, step s = .fault r → step t = .fault r) ∧ (∀ r, step s = .refused r → step t = .refused r)

/-- 40_cycle_fetch_decode.md R69 and 60_exceptions.md R145: while enabled, a cycle that hands an instruction to Execute makes
one record, of the opcode, one Number per operand (a legal operand as resolved), the registers and the stack as before
Execute; while disabled none is made. That the synthesized Halt at the ceiling makes a record too is the spec's own choice in R145;
that this record shows the number of Halt, and what one shows for an invalid operand, is the model's (log 21), and so is that
a cycle that ends in FetchOutOfRange makes none (log 10). -/
def Obligations.DebugRecordContents : Prop :=
  (∀ (s u : State) (i : Instr), fetch s = .run i u → s.debugOn = true →
    ∃ e, u.trace = s.trace ++ [e] ∧ e.opcode = i.opcodeWord s.cfg.opcodes ∧ e.regs = s.regs ∧ e.stack = s.stack ∧
      e.numbers.length = i.operands.length ∧ (i.legal = true → List.Forall₂ (SeenAs s) i.operands e.numbers)) ∧
  (∀ (s u : State) (i : Instr), fetch s = .run i u → s.debugOn = false → u.trace = s.trace) ∧
  (∀ (i : Instr) (s t : State), exec i s = .next t → t.trace = s.trace)
end

