-- ==== Sys2Proof/Laws/Decode.lean ====
section
/-! SUPPORT. The laws of the encoding tables: operand words and opcode numbers go both ways. -/

namespace Sys2Proof

/-! Operand words (30_encoding.md R48). -/

theorem Operand.toNat_word_lit (v : BitVec 15) : (Operand.lit v).word.toNat = v.toNat := by
  simp only [Operand.word, BitVec.toNat_setWidth]
  have := v.isLt
  omega

theorem Operand.toNat_word_reg (i : RegIndex) : (Operand.reg i).word.toNat = regBase + i.val := by
  simp only [Operand.word, BitVec.toNat_ofNat, regBase]
  have := i.isLt
  omega

/-! The three kinds of operand word. -/

theorem decodeOperand_lit {w : Word} (h : w.toNat ≤ litMax) : decodeOperand w = .lit (w.setWidth 15) := if_pos h

theorem decodeOperand_reg {w : Word} (h : litMax < w.toNat) (k : w.toNat ≤ regTop) :
    ∃ hi, decodeOperand w = .reg ⟨w.toNat - regBase, hi⟩ :=
  ⟨_, (if_neg (Nat.not_le.2 h)).trans (dif_pos k)⟩

theorem decodeOperand_invalid {w : Word} (h : regTop < w.toNat) : decodeOperand w = .invalid w :=
  (if_neg (Nat.not_le.2 (lt_trans (by decide) h))).trans (dif_neg (Nat.not_le.2 h))

/-- A well-formed operand is read back from its word. -/
theorem decodeOperand_word {o : Operand} (h : o.wf = true) : decodeOperand o.word = o := by
  cases o with
  | lit v =>
    have hv := v.isLt
    have hw := Operand.toNat_word_lit v
    rw [decodeOperand_lit (by rw [hw]; exact Nat.le_of_lt_succ hv), Operand.lit.injEq]
    apply BitVec.eq_of_toNat_eq
    rw [BitVec.toNat_setWidth, hw]
    omega
  | reg i =>
    have hi := i.isLt
    have hw := Operand.toNat_word_reg i
    obtain ⟨_, hd⟩ := decodeOperand_reg (w := (Operand.reg i).word)
      (by rw [hw]; exact Nat.lt_of_lt_of_le (by decide) (Nat.le_add_right _ _))
      (by rw [hw]; exact Nat.add_le_add_left (Nat.le_of_lt_succ hi) regBase)
    rw [hd, Operand.reg.injEq]
    apply Fin.ext
    show (Operand.reg i).word.toNat - regBase = i.val
    rw [hw, Nat.add_sub_cancel_left]
  | invalid w => exact decodeOperand_invalid (w := w) (by simpa [Operand.wf] using h)

/-- Every word is the word of the operand it decodes to. -/
theorem word_decodeOperand (w : Word) : (decodeOperand w).word = w := by
  apply BitVec.eq_of_toNat_eq
  unfold decodeOperand
  split
  · next h =>
    rw [Operand.toNat_word_lit, BitVec.toNat_setWidth]
    simp only [litMax] at h
    omega
  · next h =>
    split
    · rw [Operand.toNat_word_reg]
      simp only [litMax] at h
      simp only [regBase]
      omega
    · rfl

theorem decodeOperand_wf (w : Word) : (decodeOperand w).wf = true := by
  unfold decodeOperand
  split
  · rfl
  · split
    · rfl
    · next h => simpa [Operand.wf] using h

/-! Opcode numbers (30_encoding.md R49). -/

theorem Op.mem_all (o : Op) : o ∈ Op.all := by cases o <;> decide

namespace OpcodeTable

/-- A row found by its number is the only one with it. -/
theorem find_number {t : OpcodeTable} (h : (t.map Prod.snd).Nodup) {o : Op} {w : Word} (hm : (o, w) ∈ t) :
    t.find? (fun row => row.2 == w) = some (o, w) := by
  induction t with
  | nil => simp at hm
  | cons r t ih =>
    simp only [List.map_cons, List.nodup_cons] at h
    rcases List.mem_cons.1 hm with rfl | hm
    · simp
    · have hne : r.2 ≠ w := fun e => h.1 (e ▸ List.mem_map_of_mem (f := Prod.snd) hm)
      rw [List.find?_cons_of_neg (by simpa using hne), ih h.2 hm]

/-- A row found by its opcode is the only one with it. -/
theorem find_op {t : OpcodeTable} (h : (t.map Prod.fst).Nodup) {o : Op} {w : Word} (hm : (o, w) ∈ t) :
    t.find? (fun row => row.1 == o) = some (o, w) := by
  induction t with
  | nil => simp at hm
  | cons r t ih =>
    simp only [List.map_cons, List.nodup_cons] at h
    rcases List.mem_cons.1 hm with rfl | hm
    · simp
    · have hne : r.1 ≠ o := fun e => h.1 (e ▸ List.mem_map_of_mem (f := Prod.fst) hm)
      rw [List.find?_cons_of_neg (by simpa using hne), ih h.2 hm]

theorem nodup_fst {t : OpcodeTable} (h : t.wf) : (t.map Prod.fst).Nodup := h.1 ▸ by decide

/-- Every opcode has its row. -/
theorem row_of_op {t : OpcodeTable} (h : t.wf) (o : Op) : (o, t.numberOf o) ∈ t := by
  obtain ⟨⟨o', w⟩, hm, rfl⟩ := List.mem_map.1 (h.1 ▸ Op.mem_all o : o ∈ t.map Prod.fst)
  simp only [numberOf, find_op (nodup_fst h) hm]
  exact hm

/-- The opcode of an opcode's number. -/
theorem opOf_numberOf {t : OpcodeTable} (h : t.wf) (o : Op) : t.opOf (t.numberOf o) = some o := by
  rw [opOf, find_number h.2 (row_of_op h o)]
  rfl

/-- The number of the opcode a word selects. -/
theorem numberOf_of_opOf {t : OpcodeTable} (h : t.wf) {o : Op} {w : Word} (ho : t.opOf w = some o) : t.numberOf o = w := by
  simp only [opOf, Option.map_eq_some_iff] at ho
  obtain ⟨r, hr, rfl⟩ := ho
  have hm := List.mem_of_find?_eq_some hr
  have hw : r.2 = w := by simpa using List.find?_some hr
  simp only [numberOf, find_op (nodup_fst h) (show (r.1, r.2) ∈ t from hm)]
  exact hw

/-- A word selects no opcode exactly when no row has it. -/
theorem opOf_eq_none {t : OpcodeTable} {w : Word} : t.opOf w = none ↔ w ∉ t.map Prod.snd := by
  rw [opOf, Option.map_eq_none_iff, List.find?_eq_none, List.mem_map]
  simp only [beq_iff_eq, not_exists, not_and]

end OpcodeTable

end Sys2Proof
end

