-- ==== Sys2Proof/Laws/State.lean ====
section
/-! SUPPORT. One lemma per field per update of `State`, so that no proof unfolds a record update. -/

namespace Sys2Proof.Machine

/-! `setReg` -/

@[simp] theorem State.setReg_cfg (s : State) (i : RegIndex) (v : Word) : (s.setReg i v).cfg = s.cfg := rfl
@[simp] theorem State.setReg_regs (s : State) (i : RegIndex) (v : Word) : (s.setReg i v).regs = s.regs.set i v := rfl
@[simp] theorem State.setReg_pc (s : State) (i : RegIndex) (v : Word) : (s.setReg i v).pc = s.pc := rfl
@[simp] theorem State.setReg_stack (s : State) (i : RegIndex) (v : Word) : (s.setReg i v).stack = s.stack := rfl
@[simp] theorem State.setReg_mem (s : State) (i : RegIndex) (v : Word) : (s.setReg i v).mem = s.mem := rfl
@[simp] theorem State.setReg_halt (s : State) (i : RegIndex) (v : Word) : (s.setReg i v).halt = s.halt := rfl
@[simp] theorem State.setReg_err (s : State) (i : RegIndex) (v : Word) : (s.setReg i v).err = s.err := rfl
@[simp] theorem State.setReg_waiting (s : State) (i : RegIndex) (v : Word) : (s.setReg i v).waiting = s.waiting := rfl
@[simp] theorem State.setReg_input (s : State) (i : RegIndex) (v : Word) : (s.setReg i v).input = s.input := rfl
@[simp] theorem State.setReg_output (s : State) (i : RegIndex) (v : Word) : (s.setReg i v).output = s.output := rfl
@[simp] theorem State.setReg_debugOn (s : State) (i : RegIndex) (v : Word) : (s.setReg i v).debugOn = s.debugOn := rfl
@[simp] theorem State.setReg_trace (s : State) (i : RegIndex) (v : Word) : (s.setReg i v).trace = s.trace := rfl
@[simp] theorem State.setReg_freeDraws (s : State) (i : RegIndex) (v : Word) : (s.setReg i v).freeDraws = s.freeDraws := rfl

/-! `setPc` -/

@[simp] theorem State.setPc_cfg (s : State) (v : Word) : (s.setPc v).cfg = s.cfg := rfl
@[simp] theorem State.setPc_regs (s : State) (v : Word) : (s.setPc v).regs = s.regs := rfl
@[simp] theorem State.setPc_pc (s : State) (v : Word) : (s.setPc v).pc = v := rfl
@[simp] theorem State.setPc_stack (s : State) (v : Word) : (s.setPc v).stack = s.stack := rfl
@[simp] theorem State.setPc_mem (s : State) (v : Word) : (s.setPc v).mem = s.mem := rfl
@[simp] theorem State.setPc_halt (s : State) (v : Word) : (s.setPc v).halt = s.halt := rfl
@[simp] theorem State.setPc_err (s : State) (v : Word) : (s.setPc v).err = s.err := rfl
@[simp] theorem State.setPc_waiting (s : State) (v : Word) : (s.setPc v).waiting = s.waiting := rfl
@[simp] theorem State.setPc_input (s : State) (v : Word) : (s.setPc v).input = s.input := rfl
@[simp] theorem State.setPc_output (s : State) (v : Word) : (s.setPc v).output = s.output := rfl
@[simp] theorem State.setPc_debugOn (s : State) (v : Word) : (s.setPc v).debugOn = s.debugOn := rfl
@[simp] theorem State.setPc_trace (s : State) (v : Word) : (s.setPc v).trace = s.trace := rfl
@[simp] theorem State.setPc_freeDraws (s : State) (v : Word) : (s.setPc v).freeDraws = s.freeDraws := rfl
@[simp] theorem State.setPc_getReg (s : State) (v : Word) (j : RegIndex) : (s.setPc v).getReg j = s.getReg j := rfl

/-! `advancePc` -/

@[simp] theorem State.advancePc_cfg (s : State) (n : Nat) : (s.advancePc n).cfg = s.cfg := rfl
@[simp] theorem State.advancePc_regs (s : State) (n : Nat) : (s.advancePc n).regs = s.regs := rfl
@[simp] theorem State.advancePc_pc (s : State) (n : Nat) : (s.advancePc n).pc = s.pc + BitVec.ofNat 16 (1 + n) := rfl
@[simp] theorem State.advancePc_stack (s : State) (n : Nat) : (s.advancePc n).stack = s.stack := rfl
@[simp] theorem State.advancePc_mem (s : State) (n : Nat) : (s.advancePc n).mem = s.mem := rfl
@[simp] theorem State.advancePc_halt (s : State) (n : Nat) : (s.advancePc n).halt = s.halt := rfl
@[simp] theorem State.advancePc_err (s : State) (n : Nat) : (s.advancePc n).err = s.err := rfl
@[simp] theorem State.advancePc_waiting (s : State) (n : Nat) : (s.advancePc n).waiting = s.waiting := rfl
@[simp] theorem State.advancePc_input (s : State) (n : Nat) : (s.advancePc n).input = s.input := rfl
@[simp] theorem State.advancePc_output (s : State) (n : Nat) : (s.advancePc n).output = s.output := rfl
@[simp] theorem State.advancePc_debugOn (s : State) (n : Nat) : (s.advancePc n).debugOn = s.debugOn := rfl
@[simp] theorem State.advancePc_trace (s : State) (n : Nat) : (s.advancePc n).trace = s.trace := rfl
@[simp] theorem State.advancePc_freeDraws (s : State) (n : Nat) : (s.advancePc n).freeDraws = s.freeDraws := rfl
@[simp] theorem State.advancePc_getReg (s : State) (n : Nat) (j : RegIndex) : (s.advancePc n).getReg j = s.getReg j := rfl

/-! `push` -/

@[simp] theorem State.push_cfg (s : State) (v : Word) : (s.push v).cfg = s.cfg := rfl
@[simp] theorem State.push_regs (s : State) (v : Word) : (s.push v).regs = s.regs := rfl
@[simp] theorem State.push_pc (s : State) (v : Word) : (s.push v).pc = s.pc := rfl
@[simp] theorem State.push_stack (s : State) (v : Word) : (s.push v).stack = v :: s.stack := rfl
@[simp] theorem State.push_mem (s : State) (v : Word) : (s.push v).mem = s.mem := rfl
@[simp] theorem State.push_halt (s : State) (v : Word) : (s.push v).halt = s.halt := rfl
@[simp] theorem State.push_err (s : State) (v : Word) : (s.push v).err = s.err := rfl
@[simp] theorem State.push_waiting (s : State) (v : Word) : (s.push v).waiting = s.waiting := rfl
@[simp] theorem State.push_input (s : State) (v : Word) : (s.push v).input = s.input := rfl
@[simp] theorem State.push_output (s : State) (v : Word) : (s.push v).output = s.output := rfl
@[simp] theorem State.push_debugOn (s : State) (v : Word) : (s.push v).debugOn = s.debugOn := rfl
@[simp] theorem State.push_trace (s : State) (v : Word) : (s.push v).trace = s.trace := rfl
@[simp] theorem State.push_freeDraws (s : State) (v : Word) : (s.push v).freeDraws = s.freeDraws := rfl
@[simp] theorem State.push_getReg (s : State) (v : Word) (j : RegIndex) : (s.push v).getReg j = s.getReg j := rfl

/-! `setStack` -/

@[simp] theorem State.setStack_cfg (s : State) (st : List Word) : (s.setStack st).cfg = s.cfg := rfl
@[simp] theorem State.setStack_regs (s : State) (st : List Word) : (s.setStack st).regs = s.regs := rfl
@[simp] theorem State.setStack_pc (s : State) (st : List Word) : (s.setStack st).pc = s.pc := rfl
@[simp] theorem State.setStack_stack (s : State) (st : List Word) : (s.setStack st).stack = st := rfl
@[simp] theorem State.setStack_mem (s : State) (st : List Word) : (s.setStack st).mem = s.mem := rfl
@[simp] theorem State.setStack_halt (s : State) (st : List Word) : (s.setStack st).halt = s.halt := rfl
@[simp] theorem State.setStack_err (s : State) (st : List Word) : (s.setStack st).err = s.err := rfl
@[simp] theorem State.setStack_waiting (s : State) (st : List Word) : (s.setStack st).waiting = s.waiting := rfl
@[simp] theorem State.setStack_input (s : State) (st : List Word) : (s.setStack st).input = s.input := rfl
@[simp] theorem State.setStack_output (s : State) (st : List Word) : (s.setStack st).output = s.output := rfl
@[simp] theorem State.setStack_debugOn (s : State) (st : List Word) : (s.setStack st).debugOn = s.debugOn := rfl
@[simp] theorem State.setStack_trace (s : State) (st : List Word) : (s.setStack st).trace = s.trace := rfl
@[simp] theorem State.setStack_freeDraws (s : State) (st : List Word) : (s.setStack st).freeDraws = s.freeDraws := rfl
@[simp] theorem State.setStack_getReg (s : State) (st : List Word) (j : RegIndex) : (s.setStack st).getReg j = s.getReg j := rfl

/-! `setMem` -/

@[simp] theorem State.setMem_cfg (s : State) (m : Memory) : (s.setMem m).cfg = s.cfg := rfl
@[simp] theorem State.setMem_regs (s : State) (m : Memory) : (s.setMem m).regs = s.regs := rfl
@[simp] theorem State.setMem_pc (s : State) (m : Memory) : (s.setMem m).pc = s.pc := rfl
@[simp] theorem State.setMem_stack (s : State) (m : Memory) : (s.setMem m).stack = s.stack := rfl
@[simp] theorem State.setMem_mem (s : State) (m : Memory) : (s.setMem m).mem = m := rfl
@[simp] theorem State.setMem_halt (s : State) (m : Memory) : (s.setMem m).halt = s.halt := rfl
@[simp] theorem State.setMem_err (s : State) (m : Memory) : (s.setMem m).err = s.err := rfl
@[simp] theorem State.setMem_waiting (s : State) (m : Memory) : (s.setMem m).waiting = s.waiting := rfl
@[simp] theorem State.setMem_input (s : State) (m : Memory) : (s.setMem m).input = s.input := rfl
@[simp] theorem State.setMem_output (s : State) (m : Memory) : (s.setMem m).output = s.output := rfl
@[simp] theorem State.setMem_debugOn (s : State) (m : Memory) : (s.setMem m).debugOn = s.debugOn := rfl
@[simp] theorem State.setMem_trace (s : State) (m : Memory) : (s.setMem m).trace = s.trace := rfl
@[simp] theorem State.setMem_freeDraws (s : State) (m : Memory) : (s.setMem m).freeDraws = s.freeDraws := rfl
@[simp] theorem State.setMem_getReg (s : State) (m : Memory) (j : RegIndex) : (s.setMem m).getReg j = s.getReg j := rfl

/-! `emit` -/

@[simp] theorem State.emit_cfg (s : State) (v : Word) : (s.emit v).cfg = s.cfg := rfl
@[simp] theorem State.emit_regs (s : State) (v : Word) : (s.emit v).regs = s.regs := rfl
@[simp] theorem State.emit_pc (s : State) (v : Word) : (s.emit v).pc = s.pc := rfl
@[simp] theorem State.emit_stack (s : State) (v : Word) : (s.emit v).stack = s.stack := rfl
@[simp] theorem State.emit_mem (s : State) (v : Word) : (s.emit v).mem = s.mem := rfl
@[simp] theorem State.emit_halt (s : State) (v : Word) : (s.emit v).halt = s.halt := rfl
@[simp] theorem State.emit_err (s : State) (v : Word) : (s.emit v).err = s.err := rfl
@[simp] theorem State.emit_waiting (s : State) (v : Word) : (s.emit v).waiting = s.waiting := rfl
@[simp] theorem State.emit_input (s : State) (v : Word) : (s.emit v).input = s.input := rfl
@[simp] theorem State.emit_output (s : State) (v : Word) : (s.emit v).output = s.output ++ [v] := rfl
@[simp] theorem State.emit_debugOn (s : State) (v : Word) : (s.emit v).debugOn = s.debugOn := rfl
@[simp] theorem State.emit_trace (s : State) (v : Word) : (s.emit v).trace = s.trace := rfl
@[simp] theorem State.emit_freeDraws (s : State) (v : Word) : (s.emit v).freeDraws = s.freeDraws := rfl
@[simp] theorem State.emit_getReg (s : State) (v : Word) (j : RegIndex) : (s.emit v).getReg j = s.getReg j := rfl

/-! `setInput` -/

@[simp] theorem State.setInput_cfg (s : State) (vs : List Word) (wt : Option Number) : (s.setInput vs wt).cfg = s.cfg := rfl
@[simp] theorem State.setInput_regs (s : State) (vs : List Word) (wt : Option Number) : (s.setInput vs wt).regs = s.regs := rfl
@[simp] theorem State.setInput_pc (s : State) (vs : List Word) (wt : Option Number) : (s.setInput vs wt).pc = s.pc := rfl
@[simp] theorem State.setInput_stack (s : State) (vs : List Word) (wt : Option Number) : (s.setInput vs wt).stack = s.stack := rfl
@[simp] theorem State.setInput_mem (s : State) (vs : List Word) (wt : Option Number) : (s.setInput vs wt).mem = s.mem := rfl
@[simp] theorem State.setInput_halt (s : State) (vs : List Word) (wt : Option Number) : (s.setInput vs wt).halt = s.halt := rfl
@[simp] theorem State.setInput_err (s : State) (vs : List Word) (wt : Option Number) : (s.setInput vs wt).err = s.err := rfl
@[simp] theorem State.setInput_waiting (s : State) (vs : List Word) (wt : Option Number) : (s.setInput vs wt).waiting = wt := rfl
@[simp] theorem State.setInput_input (s : State) (vs : List Word) (wt : Option Number) : (s.setInput vs wt).input = vs := rfl
@[simp] theorem State.setInput_output (s : State) (vs : List Word) (wt : Option Number) : (s.setInput vs wt).output = s.output := rfl
@[simp] theorem State.setInput_debugOn (s : State) (vs : List Word) (wt : Option Number) : (s.setInput vs wt).debugOn = s.debugOn := rfl
@[simp] theorem State.setInput_trace (s : State) (vs : List Word) (wt : Option Number) : (s.setInput vs wt).trace = s.trace := rfl
@[simp] theorem State.setInput_freeDraws (s : State) (vs : List Word) (wt : Option Number) : (s.setInput vs wt).freeDraws = s.freeDraws := rfl
@[simp] theorem State.setInput_getReg (s : State) (vs : List Word) (wt : Option Number) (j : RegIndex) : (s.setInput vs wt).getReg j = s.getReg j := rfl

/-! `countDraw` -/

@[simp] theorem State.countDraw_cfg (s : State) : s.countDraw.cfg = s.cfg := rfl
@[simp] theorem State.countDraw_regs (s : State) : s.countDraw.regs = s.regs := rfl
@[simp] theorem State.countDraw_pc (s : State) : s.countDraw.pc = s.pc := rfl
@[simp] theorem State.countDraw_stack (s : State) : s.countDraw.stack = s.stack := rfl
@[simp] theorem State.countDraw_mem (s : State) : s.countDraw.mem = s.mem := rfl
@[simp] theorem State.countDraw_halt (s : State) : s.countDraw.halt = s.halt := rfl
@[simp] theorem State.countDraw_err (s : State) : s.countDraw.err = s.err := rfl
@[simp] theorem State.countDraw_waiting (s : State) : s.countDraw.waiting = s.waiting := rfl
@[simp] theorem State.countDraw_input (s : State) : s.countDraw.input = s.input := rfl
@[simp] theorem State.countDraw_output (s : State) : s.countDraw.output = s.output := rfl
@[simp] theorem State.countDraw_debugOn (s : State) : s.countDraw.debugOn = s.debugOn := rfl
@[simp] theorem State.countDraw_trace (s : State) : s.countDraw.trace = s.trace := rfl
@[simp] theorem State.countDraw_freeDraws (s : State) : s.countDraw.freeDraws = s.freeDraws + 1 := rfl
@[simp] theorem State.countDraw_getReg (s : State) (j : RegIndex) : s.countDraw.getReg j = s.getReg j := rfl

/-! `setHalt` -/

@[simp] theorem State.setHalt_cfg (s : State) : s.setHalt.cfg = s.cfg := rfl
@[simp] theorem State.setHalt_regs (s : State) : s.setHalt.regs = s.regs := rfl
@[simp] theorem State.setHalt_pc (s : State) : s.setHalt.pc = s.pc := rfl
@[simp] theorem State.setHalt_stack (s : State) : s.setHalt.stack = s.stack := rfl
@[simp] theorem State.setHalt_mem (s : State) : s.setHalt.mem = s.mem := rfl
@[simp] theorem State.setHalt_halt (s : State) : s.setHalt.halt = true := rfl
@[simp] theorem State.setHalt_err (s : State) : s.setHalt.err = s.err := rfl
@[simp] theorem State.setHalt_waiting (s : State) : s.setHalt.waiting = s.waiting := rfl
@[simp] theorem State.setHalt_input (s : State) : s.setHalt.input = s.input := rfl
@[simp] theorem State.setHalt_output (s : State) : s.setHalt.output = s.output := rfl
@[simp] theorem State.setHalt_debugOn (s : State) : s.setHalt.debugOn = s.debugOn := rfl
@[simp] theorem State.setHalt_trace (s : State) : s.setHalt.trace = s.trace := rfl
@[simp] theorem State.setHalt_freeDraws (s : State) : s.setHalt.freeDraws = s.freeDraws := rfl
@[simp] theorem State.setHalt_getReg (s : State) (j : RegIndex) : s.setHalt.getReg j = s.getReg j := rfl

/-! `raise` -/

@[simp] theorem State.raise_cfg (s : State) (e : Err) : (s.raise e).cfg = s.cfg := by
  unfold State.raise; split <;> rfl
@[simp] theorem State.raise_regs (s : State) (e : Err) : (s.raise e).regs = s.regs := by
  unfold State.raise; split <;> rfl
@[simp] theorem State.raise_pc (s : State) (e : Err) : (s.raise e).pc = s.pc := by
  unfold State.raise; split <;> rfl
@[simp] theorem State.raise_stack (s : State) (e : Err) : (s.raise e).stack = s.stack := by
  unfold State.raise; split <;> rfl
@[simp] theorem State.raise_mem (s : State) (e : Err) : (s.raise e).mem = s.mem := by
  unfold State.raise; split <;> rfl
@[simp] theorem State.raise_halt (s : State) (e : Err) : (s.raise e).halt = s.halt := by
  unfold State.raise; split <;> rfl
@[simp] theorem State.raise_err (s : State) (e : Err) : (s.raise e).err = if s.err = .none then e else s.err := by
  unfold State.raise; split <;> rfl
@[simp] theorem State.raise_waiting (s : State) (e : Err) : (s.raise e).waiting = s.waiting := by
  unfold State.raise; split <;> rfl
@[simp] theorem State.raise_input (s : State) (e : Err) : (s.raise e).input = s.input := by
  unfold State.raise; split <;> rfl
@[simp] theorem State.raise_output (s : State) (e : Err) : (s.raise e).output = s.output := by
  unfold State.raise; split <;> rfl
@[simp] theorem State.raise_debugOn (s : State) (e : Err) : (s.raise e).debugOn = s.debugOn := by
  unfold State.raise; split <;> rfl
@[simp] theorem State.raise_trace (s : State) (e : Err) : (s.raise e).trace = s.trace := by
  unfold State.raise; split <;> rfl
@[simp] theorem State.raise_freeDraws (s : State) (e : Err) : (s.raise e).freeDraws = s.freeDraws := by
  unfold State.raise; split <;> rfl
@[simp] theorem State.raise_getReg (s : State) (e : Err) (j : RegIndex) : (s.raise e).getReg j = s.getReg j := by
  unfold State.raise; split <;> rfl

/-- The first condition recorded stays (60_exceptions.md R131). -/
theorem State.raise_of_err {s : State} (h : s.err ≠ .none) (e : Err) : s.raise e = s := if_neg h

theorem State.raise_of_none {s : State} (h : s.err = .none) (e : Err) : s.raise e = { s with err := e } := if_pos h

/-! `expose`: nothing but the trace. -/

@[simp] theorem expose_cfg (i : Instr) (s : State) : (expose i s).cfg = s.cfg := by
  unfold expose; split <;> rfl
@[simp] theorem expose_regs (i : Instr) (s : State) : (expose i s).regs = s.regs := by
  unfold expose; split <;> rfl
@[simp] theorem expose_pc (i : Instr) (s : State) : (expose i s).pc = s.pc := by
  unfold expose; split <;> rfl
@[simp] theorem expose_stack (i : Instr) (s : State) : (expose i s).stack = s.stack := by
  unfold expose; split <;> rfl
@[simp] theorem expose_mem (i : Instr) (s : State) : (expose i s).mem = s.mem := by
  unfold expose; split <;> rfl
@[simp] theorem expose_halt (i : Instr) (s : State) : (expose i s).halt = s.halt := by
  unfold expose; split <;> rfl
@[simp] theorem expose_err (i : Instr) (s : State) : (expose i s).err = s.err := by
  unfold expose; split <;> rfl
@[simp] theorem expose_waiting (i : Instr) (s : State) : (expose i s).waiting = s.waiting := by
  unfold expose; split <;> rfl
@[simp] theorem expose_input (i : Instr) (s : State) : (expose i s).input = s.input := by
  unfold expose; split <;> rfl
@[simp] theorem expose_output (i : Instr) (s : State) : (expose i s).output = s.output := by
  unfold expose; split <;> rfl
@[simp] theorem expose_debugOn (i : Instr) (s : State) : (expose i s).debugOn = s.debugOn := by
  unfold expose; split <;> rfl
@[simp] theorem expose_trace (i : Instr) (s : State) :
    (expose i s).trace = if s.debugOn then s.trace ++ [debugEntry i s] else s.trace := by
  unfold expose; split <;> rfl
@[simp] theorem expose_freeDraws (i : Instr) (s : State) : (expose i s).freeDraws = s.freeDraws := by
  unfold expose; split <;> rfl

/-! Reading a register after writing one. -/

@[simp] theorem State.getReg_setReg_same (s : State) (i : RegIndex) (v : Word) : (s.setReg i v).getReg i = v := by
  simp [State.getReg, State.setReg]

theorem State.getReg_setReg_ne (s : State) {i j : RegIndex} (h : j ≠ i) (v : Word) :
    (s.setReg i v).getReg j = s.getReg j := by
  have hv : i.val ≠ j.val := fun e => h (Fin.ext e.symm)
  simp [State.getReg, State.setReg, hv]

/-- A register read after a write, in one equation. -/
theorem State.getReg_setReg (s : State) (i j : RegIndex) (v : Word) :
    (s.setReg i v).getReg j = if j = i then v else s.getReg j := by
  split
  · next h => subst h; simp
  · next h => exact State.getReg_setReg_ne s h v

/-! Two states with the same fields are one state. -/

theorem State.ext_fields {s t : State} (cfg : s.cfg = t.cfg) (regs : s.regs = t.regs) (pc : s.pc = t.pc)
    (stack : s.stack = t.stack) (mem : s.mem = t.mem) (halt : s.halt = t.halt) (err : s.err = t.err)
    (waiting : s.waiting = t.waiting) (input : s.input = t.input) (output : s.output = t.output)
    (debugOn : s.debugOn = t.debugOn) (trace : s.trace = t.trace) (freeDraws : s.freeDraws = t.freeDraws) : s = t := by
  cases s; cases t; simp_all

end Sys2Proof.Machine
end

