-- ==== Sys2Proof/Laws/Operands.lean ====
section
/-! SUPPORT. What resolving operands can do (40_cycle_fetch_decode.md R65 to R67, R71), said once. -/

namespace Sys2Proof.Machine

/-- The Number of a legal operand in a state (R66). -/
def legalNumber (s : State) : Operand → Number
  | .lit v => .lit (v.setWidth 16)
  | .reg i => .reg i (s.getReg i)
  | .invalid _ => .lit 0

@[simp] theorem legalNumber_lit (s : State) (v : BitVec 15) : legalNumber s (.lit v) = .lit (v.setWidth 16) := rfl
@[simp] theorem legalNumber_reg (s : State) (i : RegIndex) : legalNumber s (.reg i) = .reg i (s.getReg i) := rfl
@[simp] theorem numVal_lit (v : Word) : numVal (.lit v) = v := rfl
@[simp] theorem numVal_reg (i : RegIndex) (v : Word) : numVal (.reg i v) = v := rfl
@[simp] theorem ifReg_lit (v : Word) (s : State) (act : RegIndex → State) : ifReg (.lit v) s act = s := rfl
@[simp] theorem ifReg_reg (i : RegIndex) (v : Word) (s : State) (act : RegIndex → State) : ifReg (.reg i v) s act = act i := rfl
@[simp] theorem writeDest_lit (v u : Word) (s : State) : writeDest (.lit v) u s = s := rfl
@[simp] theorem writeDest_reg (i : RegIndex) (v u : Word) (s : State) : writeDest (.reg i v) u s = s.setReg i u := rfl

@[simp] theorem resolve_lit (v : BitVec 15) (s : State) : resolve (.lit v) s = (.lit (v.setWidth 16), s) := rfl
@[simp] theorem resolve_reg (i : RegIndex) (s : State) : resolve (.reg i) s = (.reg i (s.getReg i), s) := rfl
@[simp] theorem resolve_invalid (w : Word) (s : State) :
    resolve (.invalid w) s = (Config.freeNumber s.freeDraws, (s.raise .decodeError).countDraw) := rfl

/-- A legal operand is resolved without touching the state. -/
theorem resolve_legal {o : Operand} (h : o.legal = true) (s : State) : resolve o s = (legalNumber s o, s) := by
  cases o with
  | lit => rfl
  | reg => rfl
  | invalid w => simp [Operand.legal] at h

/-- All resolving can do to a state: nothing, or record DecodeError and count one draw. -/
theorem resolve_state (o : Operand) (s : State) :
    (o.legal = true ∧ (resolve o s).2 = s) ∨ (o.legal = false ∧ (resolve o s).2 = (s.raise .decodeError).countDraw) := by
  cases o with
  | lit => exact .inl ⟨rfl, rfl⟩
  | reg => exact .inl ⟨rfl, rfl⟩
  | invalid w => exact .inr ⟨rfl, rfl⟩

/-- A rule of one legal operand runs on the state it is given. -/
theorem run1_legal {a : Operand} (ha : a.legal = true) (s : State) (rule : Number → State → State) :
    run1 a s rule = .next (rule (legalNumber s a) s) := by
  simp only [run1, resolve_legal ha]

theorem run2_legal {a b : Operand} (ha : a.legal = true) (hb : b.legal = true) (s : State)
    (rule : Number → Number → State → State) :
    run2 a b s rule = .next (rule (legalNumber s a) (legalNumber s b) s) := by
  simp only [run2, resolve_legal ha, resolve_legal hb]

theorem run3_legal {a b c : Operand} (ha : a.legal = true) (hb : b.legal = true) (hc : c.legal = true) (s : State)
    (rule : Number → Number → Number → State → State) :
    run3 a b c s rule = .next (rule (legalNumber s a) (legalNumber s b) (legalNumber s c) s) := by
  simp only [run3, resolve_legal ha, resolve_legal hb, resolve_legal hc]

/-- The debug trace shows the Numbers the rule is run on. -/
theorem resolveAll_three (a b c : Operand) (s : State) :
    resolveAll [a, b, c] s =
      ([(resolve a (resolve b (resolve c s).2).2).1, (resolve b (resolve c s).2).1, (resolve c s).1],
        (resolve a (resolve b (resolve c s).2).2).2) := rfl

/-- What fetching operands may change of a state: err and the count of draws, and err only by recording DecodeError in
place of None. -/
structure OperandsTaken (s t : State) : Prop where
  cfg : t.cfg = s.cfg
  regs : t.regs = s.regs
  pc : t.pc = s.pc
  stack : t.stack = s.stack
  mem : t.mem = s.mem
  halt : t.halt = s.halt
  err : t.err = s.err ∨ (s.err = .none ∧ t.err = .decodeError)
  waiting : t.waiting = s.waiting
  input : t.input = s.input
  output : t.output = s.output
  debugOn : t.debugOn = s.debugOn
  trace : t.trace = s.trace

theorem OperandsTaken.refl (s : State) : OperandsTaken s s := by
  constructor <;> simp

theorem OperandsTaken.trans {s t u : State} (h : OperandsTaken s t) (k : OperandsTaken t u) : OperandsTaken s u := by
  constructor
  case err =>
    rcases k.err with e | ⟨e, e'⟩
    · rw [e]; exact h.err
    · rcases h.err with f | ⟨f, f'⟩
      · exact .inr ⟨f ▸ e, e'⟩
      · exact .inr ⟨f, e'⟩
  all_goals simp [h.cfg, h.regs, h.pc, h.stack, h.mem, h.halt, h.waiting, h.input, h.output, h.debugOn, h.trace,
    k.cfg, k.regs, k.pc, k.stack, k.mem, k.halt, k.waiting, k.input, k.output, k.debugOn, k.trace]

theorem resolve_like (o : Operand) (s : State) : OperandsTaken s (resolve o s).2 := by
  cases o with
  | lit => exact .refl s
  | reg => exact .refl s
  | invalid w =>
    constructor
    case err => by_cases h : s.err = .none <;> simp [h]
    all_goals simp

/-- Taking all the operands of an instruction. -/
theorem resolveAll_like (os : List Operand) (s : State) : OperandsTaken s (resolveAll os s).2 := by
  induction os with
  | nil => exact .refl s
  | cons o os ih => exact ih.trans (resolve_like o _)

/-- Legal operands are taken without touching the state, each with its Number. -/
theorem resolveAll_legal {os : List Operand} (h : os.all Operand.legal = true) (s : State) :
    resolveAll os s = (os.map (legalNumber s), s) := by
  induction os with
  | nil => rfl
  | cons o os ih =>
    rw [List.all_cons, Bool.and_eq_true] at h
    simp only [resolveAll, ih h.2, resolve_legal h.1, List.map_cons]

/-- Every operand yields one Number. -/
theorem resolveAll_length (os : List Operand) (s : State) : (resolveAll os s).1.length = os.length := by
  induction os with
  | nil => rfl
  | cons o os ih => simp only [resolveAll, List.length_cons, ih]

/-- One invalid operand is enough for DecodeError, wherever it stands (R67: sticky within the instruction). -/
theorem resolveAll_invalid {os : List Operand} (h : os.all Operand.legal = false) {s : State} (h0 : s.err = .none) :
    (resolveAll os s).2.err = .decodeError := by
  induction os with
  | nil => simp at h
  | cons o os ih =>
    simp only [resolveAll]
    by_cases hos : os.all Operand.legal = true
    · rw [List.all_cons, hos, Bool.and_true] at h
      cases o with
      | invalid w => simp [resolveAll_legal hos, h0]
      | lit v => simp [Operand.legal] at h
      | reg i => simp [Operand.legal] at h
    · have e := ih (by simpa using hos)
      cases o <;> simp [e]

/-- All a rule of one operand can do: it answers next, with the rule run on some Number and a state fetching made. -/
theorem run1_inv (a : Operand) (s : State) (rule : Number → State → State) :
    ∃ na u, OperandsTaken s u ∧ run1 a s rule = .next (rule na u) :=
  ⟨_, _, resolve_like a s, rfl⟩

theorem run2_inv (a b : Operand) (s : State) (rule : Number → Number → State → State) :
    ∃ na nb u, OperandsTaken s u ∧ run2 a b s rule = .next (rule na nb u) :=
  ⟨_, _, _, (resolve_like b s).trans (resolve_like a _), rfl⟩

theorem run3_inv (a b c : Operand) (s : State) (rule : Number → Number → Number → State → State) :
    ∃ na nb nc u, OperandsTaken s u ∧ run3 a b c s rule = .next (rule na nb nc u) :=
  ⟨_, _, _, _, ((resolve_like c s).trans (resolve_like b _)).trans (resolve_like a _), rfl⟩

/-- Writing a destination changes at most the register file. -/
theorem writeDest_cases (a : Number) (v : Word) (s : State) :
    writeDest a v s = s ∨ ∃ i u, a = .reg i u ∧ writeDest a v s = s.setReg i v := by
  cases a with
  | lit u => exact .inl rfl
  | reg i u => exact .inr ⟨i, u, rfl, rfl⟩

end Sys2Proof.Machine
end

