-- ==== Sys2Proof/Laws/Exec.lean ====
section
/-! SUPPORT. What one instruction, one fetch and one step can do, said once: later proofs take these cases apart instead of
unfolding `exec`, `fetch` and `step`. -/

namespace Sys2Proof.Machine

/-- The changes Execute can make, each with the instructions that can make it. `u` is the state after the operands were
taken. A destination that is not `.reg r` and is written is an invalid operand's arbitrary Number. -/
inductive Effect : Instr → State → State → Prop
  | same {i : Instr} {u : State} : Effect i u u
  | wroteReg {i : Instr} {u : State} {d : Operand} {r : RegIndex} {v : Word} (hd : i.dest = some d)
      (hr : d = .reg r ∨ d.legal = false) (hp : ∀ a, i ≠ .pop a) (hin : ∀ a, i ≠ .input a) : Effect i u (u.setReg r v)
  | popped {u : State} {a : Operand} {r : RegIndex} {v : Word} {st : List Word} (hr : a = .reg r ∨ a.legal = false)
      (hs : u.stack = v :: st) : Effect (.pop a) u ((u.setStack st).setReg r v)
  | pushed {u : State} {a : Operand} {v : Word} (hf : u.stackFull = false) : Effect (.push a) u (u.push v)
  | jumped {i : Instr} {u : State} {v : Word}
      (hi : (∃ a, i = .jumpTo a) ∨ (∃ a b, i = .jumpToIfNotZero a b) ∨ ∃ a b, i = .jumpToIfZero a b) : Effect i u (u.setPc v)
  | called {u : State} {a : Operand} {v : Word} (hf : u.stackFull = false) : Effect (.call a) u ((u.push u.pc).setPc v)
  | returned {u : State} {v : Word} {st : List Word} (hs : u.stack = v :: st) : Effect .ret u ((u.setStack st).setPc v)
  | stored {u : State} {a b : Operand} {w v : Word} (hw : w.toNat < u.cfg.memWords) :
      Effect (.writeMemory a b) u (u.setMem (u.mem.writeWord w.toNat v))
  | emitted {u : State} {a : Operand} {v : Word} : Effect (.output a) u (u.emit v)
  | took {u : State} {a : Operand} {n : Number} {v : Word} {vs : List Word} (hi : u.input = v :: vs)
      (hn : (∃ l, n = .lit l) ∨ ∃ r x, n = .reg r x ∧ (a = .reg r ∨ a.legal = false)) :
      Effect (.input a) u (writeDest n v (u.setInput vs none))
  | waited {u : State} {a : Operand} {n : Number} (hi : u.input = []) : Effect (.input a) u (u.setInput [] (some n))
  | halted {i : Instr} {u : State} (hi : i = .halt ∨ (i = .ret ∧ u.stack = [])) : Effect i u u.setHalt
  | raised {i : Instr} {u : State} {e : Err}
      (he : (e = .stackOverflow ∧ u.stackFull = true ∧ ((∃ a, i = .push a) ∨ ∃ a, i = .call a)) ∨
        (e = .divideByZero ∧ ∃ a b c, i = .modulous a b c) ∨
        (e = .addressOutOfRange ∧ ((∃ a b, i = .readMemory a b) ∨ ∃ a b, i = .writeMemory a b)) ∨
        (e = .invalidOpcode ∧ ∃ w, i = .unrecognizedOpcode w)) : Effect i u (u.raise e)

/-- A resolved operand that is a register reference was one, or was invalid. -/
theorem resolve_reg_kind {o : Operand} {s : State} {r : RegIndex} {x : Word} (h : (resolve o s).1 = .reg r x) :
    o = .reg r ∨ o.legal = false := by
  cases o with
  | lit v => simp [resolve] at h
  | reg i => simp only [resolve, Number.reg.injEq] at h; exact .inl (h.1 ▸ rfl)
  | invalid w => exact .inr rfl

/-- Writing the resolved destination is an effect of an instruction with that destination. -/
theorem effect_writeDest {i : Instr} {d : Operand} (hd : i.dest = some d) (hp : ∀ a, i ≠ .pop a) (hin : ∀ a, i ≠ .input a)
    {n : Number} {s' : State} (hn : n = (resolve d s').1) (v : Word) (u : State) : Effect i u (writeDest n v u) := by
  cases n with
  | lit x => exact .same
  | reg r x => exact .wroteReg hd (resolve_reg_kind hn.symm) hp hin

/-- The state an instruction's rule is run on: its operands have been taken. -/
abbrev taken (i : Instr) (s : State) : State := (resolveAll i.operands s).2

/-- With legal operands, and so for every instruction without operands, it is the state before. -/
theorem taken_legal {i : Instr} (h : i.legal = true) (s : State) : taken i s = s :=
  congrArg Prod.snd (resolveAll_legal h s)

theorem taken_like (i : Instr) (s : State) : OperandsTaken s (taken i s) := resolveAll_like _ s

/-- Every instruction answers a next state, and that state is one of the effects on the state its operands left. -/
theorem exec_effect (i : Instr) (s : State) : ∃ t, exec i s = .next t ∧ Effect i (taken i s) t := by
  cases i with
  | halt => exact ⟨_, rfl, .halted (.inl rfl)⟩
  | noOperation => exact ⟨_, rfl, .same⟩
  | unrecognizedOpcode w => exact ⟨_, rfl, .raised (.inr (.inr (.inr ⟨rfl, w, rfl⟩)))⟩
  | ret =>
    rcases h : s.stack with _ | ⟨v, st⟩
    · exact ⟨_, by simp only [exec, execReturn, h]; rfl, .halted (.inr ⟨rfl, h⟩)⟩
    · exact ⟨_, by simp only [exec, execReturn, h]; rfl, .returned h⟩
  | set a b =>
    exact ⟨_, rfl, effect_writeDest rfl (by simp) (by simp) rfl _ _⟩
  | not a b =>
    exact ⟨_, rfl, effect_writeDest rfl (by simp) (by simp) rfl _ _⟩
  | equalTo a b c =>
    exact ⟨_, rfl,
      effect_writeDest rfl (by simp) (by simp) rfl _ _⟩
  | greaterThan a b c =>
    exact ⟨_, rfl,
      effect_writeDest rfl (by simp) (by simp) rfl _ _⟩
  | add a b c =>
    exact ⟨_, rfl,
      effect_writeDest rfl (by simp) (by simp) rfl _ _⟩
  | multiply a b c =>
    exact ⟨_, rfl,
      effect_writeDest rfl (by simp) (by simp) rfl _ _⟩
  | and a b c =>
    exact ⟨_, rfl,
      effect_writeDest rfl (by simp) (by simp) rfl _ _⟩
  | or a b c =>
    exact ⟨_, rfl,
      effect_writeDest rfl (by simp) (by simp) rfl _ _⟩
  | modulous a b c =>
    refine ⟨_, rfl, ?_⟩
    generalize hn : (resolve a _).1 = n
    cases n with
    | lit x => exact .same
    | reg r x =>
      simp only [ifReg_reg]
      split
      · exact .raised (.inr (.inl ⟨rfl, a, b, c, rfl⟩))
      · exact .wroteReg rfl (resolve_reg_kind hn) (by simp) (by simp)
  | readMemory a b =>
    refine ⟨_, rfl, ?_⟩
    generalize hn : (resolve a _).1 = n
    cases n with
    | lit x => exact .same
    | reg r x =>
      simp only [ifReg_reg]
      split
      · exact .raised (.inr (.inr (.inl ⟨rfl, .inl ⟨a, b, rfl⟩⟩)))
      · exact .wroteReg rfl (resolve_reg_kind hn) (by simp) (by simp)
  | writeMemory a b =>
    refine ⟨_, rfl, ?_⟩
    simp only [State.storeWord]
    split
    · exact .raised (.inr (.inr (.inl ⟨rfl, .inr ⟨a, b, rfl⟩⟩)))
    · next t ht =>
      split at ht
      · next hw => cases ht; exact .stored hw
      · cases ht
  | push a =>
    refine ⟨_, rfl, ?_⟩
    simp only
    split
    · next hf => exact .raised (.inl ⟨rfl, hf, .inl ⟨a, rfl⟩⟩)
    · next hf => exact .pushed (Bool.eq_false_iff.2 hf)
  | call a =>
    refine ⟨_, rfl, ?_⟩
    simp only
    split
    · next hf => exact .raised (.inl ⟨rfl, hf, .inr ⟨a, rfl⟩⟩)
    · next hf => exact .called (Bool.eq_false_iff.2 hf)
  | pop a =>
    refine ⟨_, rfl, ?_⟩
    generalize hn : (resolve a _).1 = n
    cases n with
    | lit x => exact .same
    | reg r x =>
      simp only [ifReg_reg]
      split
      · exact .same
      · next hs => exact .popped (resolve_reg_kind hn) hs
  | jumpTo a => exact ⟨_, rfl, .jumped (.inl ⟨a, rfl⟩)⟩
  | jumpToIfNotZero a b =>
    refine ⟨_, rfl, ?_⟩
    simp only
    split
    · exact .jumped (.inr (.inl ⟨a, b, rfl⟩))
    · exact .same
  | jumpToIfZero a b =>
    refine ⟨_, rfl, ?_⟩
    simp only
    split
    · exact .jumped (.inr (.inr ⟨a, b, rfl⟩))
    · exact .same
  | output a => exact ⟨_, rfl, .emitted⟩
  | input a =>
    refine ⟨_, rfl, ?_⟩
    simp only [takeInput]
    split
    · next hi => exact .waited hi
    · next v vs hi =>
      refine .took hi ?_
      generalize hn : (resolve a _).1 = n
      cases n with
      | lit l => exact .inl ⟨l, rfl⟩
      | reg r x => exact .inr ⟨r, x, rfl, resolve_reg_kind hn⟩

/-- The same from an answer. -/
theorem effect_of_exec {i : Instr} {s t : State} (h : exec i s = .next t) : Effect i (taken i s) t := by
  obtain ⟨t', ht', he⟩ := exec_effect i s
  cases ht'.symm.trans h
  exact he

/-- What WriteMemory does to memory, whatever its operands: its word is stored where its first operand says, if that exists. -/
theorem execWriteMemory_mem {a b : Operand} {s t : State} (h : execWriteMemory a b s = .next t) :
    (numVal (resolve a (resolve b s).2).1).toNat < s.cfg.memWords ∧
      t.mem = s.mem.writeWord (numVal (resolve a (resolve b s).2).1).toNat (numVal (resolve b s).1) ∨
    s.cfg.memWords ≤ (numVal (resolve a (resolve b s).2).1).toNat ∧ t.mem = s.mem := by
  have hu : OperandsTaken s (resolve a (resolve b s).2).2 := (resolve_like b s).trans (resolve_like a _)
  simp only [execWriteMemory, run2, State.storeWord, Host.Outcome.next.injEq] at h
  subst h
  split
  · next hw =>
    split at hw
    · cases hw
    · next hlt => exact .inr ⟨hu.cfg ▸ Nat.not_lt.1 hlt, by simp [hu.mem]⟩
  · next u hw =>
    split at hw
    · next hlt => cases hw; exact .inl ⟨hu.cfg ▸ hlt, by simp [hu.mem]⟩
    · cases hw

/-- All Fetch can hand to Execute. -/
theorem fetch_run {s u : State} {i : Instr} (h : fetch s = .run i u) :
    (s.cfg.pcCeiling ≤ s.pc.toNat ∧ i = .halt ∧ u = expose .halt s) ∨
    (s.pc.toNat < s.cfg.pcCeiling ∧ s.pc.toNat < s.cfg.memWords ∧
      (0 < fetchCount s → s.pc.toNat + fetchCount s < s.cfg.memWords) ∧
      i = fetchInstr s ∧ u = expose (fetchInstr s) (s.advancePc (fetchCount s))) := by
  unfold fetch at h
  split at h
  · next hc => cases h; exact .inl ⟨hc, rfl, rfl⟩
  · next hc =>
    split at h
    · cases h
    · next hm =>
      split at h
      · cases h
      · next hr =>
        cases h
        exact .inr ⟨by omega, by omega, fun h0 => by have := not_and.1 hr h0; omega, rfl, rfl⟩

/-- The one way Fetch ends a cycle. -/
theorem fetch_ended {s t : State} (h : fetch s = .ended t) :
    s.pc.toNat < s.cfg.pcCeiling ∧ 0 < fetchCount s ∧ s.cfg.memWords ≤ s.pc.toNat + fetchCount s ∧
      t = (s.advancePc (fetchCount s)).raise .fetchOutOfRange := by
  unfold fetch at h
  split at h
  · cases h
  · split at h
    · cases h
    · split at h
      · next hr => cases h; exact ⟨by omega, hr.1, hr.2, rfl⟩
      · cases h

/-- All a step that answers a next state can do. -/
theorem step_next {s t : State} (h : step s = .next t) :
    (∃ a, s.waiting = some a ∧ t = takeInput a s) ∨
    (s.waiting = none ∧ s.terminal = true ∧ t = s) ∨
    (s.waiting = none ∧ s.terminal = false ∧ ∃ i u, fetch s = .run i u ∧ exec i u = .next t) ∨
    (s.waiting = none ∧ s.terminal = false ∧ fetch s = .ended t) := by
  unfold step at h
  split at h
  · next a ha => cases h; exact .inl ⟨a, ha, rfl⟩
  · next hw =>
    split at h
    · next ht => cases h; exact .inr (.inl ⟨hw, ht, rfl⟩)
    · next ht =>
      have ht : s.terminal = false := by simpa using ht
      split at h
      · next i u hf => exact .inr (.inr (.inl ⟨hw, ht, i, u, hf, h⟩))
      · next hf => cases h; exact .inr (.inr (.inr ⟨hw, ht, hf⟩))
      · cases h

/-- What completing or continuing an Input's wait can do. -/
theorem takeInput_cases (a : Number) (s : State) :
    (s.input = [] ∧ takeInput a s = s.setInput [] (some a)) ∨
    ∃ v vs, s.input = v :: vs ∧ takeInput a s = writeDest a v (s.setInput vs none) := by
  rcases h : s.input with _ | ⟨v, vs⟩
  · exact .inl ⟨rfl, by simp only [takeInput, h]⟩
  · exact .inr ⟨v, vs, rfl, by simp only [takeInput, h]⟩

/-- Not terminal means neither flag is set. -/
theorem terminal_eq_false {s : State} : s.terminal = false ↔ s.halt = false ∧ s.err = .none := by
  simp only [State.terminal, Bool.or_eq_false_iff, bne_eq_false_iff_eq]

end Sys2Proof.Machine
end

