-- ==== Sys2Proof/Laws/Memory.lean ====
section
/-! SUPPORT. The laws of memory: what a read after a write gives, that every operation keeps the canonical form, and that
equal memories are equal data. -/

namespace Sys2Proof.Machine

namespace Memory

/-! Canonical form of a cons. -/

theorem wf_nil : Memory.wf [] := ⟨List.Pairwise.nil, by simp⟩

theorem wf_cons {c : Host.Cell} {m : Memory} :
    Memory.wf (c :: m) ↔ (∀ d ∈ m, c.1 < d.1) ∧ c.2 ≠ unlistedByte ∧ Memory.wf m := by
  simp only [Memory.wf, List.pairwise_cons, List.mem_cons, forall_eq_or_imp]
  tauto

/-- An address below every listed one reads as unlisted. -/
theorem readByte_of_below {m : Memory} {a : Nat} (h : ∀ d ∈ m, a < d.1) : m.readByte a = unlistedByte := by
  induction m with
  | nil => rfl
  | cons c m ih =>
    have hc := h c (by simp)
    rw [readByte, if_neg (by omega), ih fun d hd => h d (by simp [hd])]

/-! Where the listed addresses of a written memory come from. -/

theorem mem_writeByte {m : Memory} {a : Nat} {v : Byte} {d : Host.Cell} (h : d ∈ m.writeByte a v) :
    d = (a, v) ∧ v ≠ unlistedByte ∨ d ∈ m := by
  induction m with
  | nil =>
    simp only [writeByte] at h
    split at h <;> simp_all
  | cons c m ih =>
    simp only [writeByte] at h
    split at h
    · split at h <;> simp_all
    · split at h
      · split at h
        · exact .inr (by simp [h])
        · next hv =>
          rcases List.mem_cons.1 h with h | h
          · exact .inl ⟨h, hv⟩
          · exact .inr (by simp [h])
      · rcases List.mem_cons.1 h with h | h
        · exact .inr (by simp [h])
        · rcases ih h with h | h
          · exact .inl h
          · exact .inr (by simp [h])

/-- Writing a byte keeps the canonical form. -/
theorem wf_writeByte {m : Memory} (h : m.wf) (a : Nat) (v : Byte) : (m.writeByte a v).wf := by
  induction m with
  | nil =>
    simp only [writeByte]
    split
    · exact wf_nil
    · next hv => exact wf_cons.2 ⟨by simp, hv, wf_nil⟩
  | cons c m ih =>
    obtain ⟨hlt, hne, hm⟩ := wf_cons.1 h
    simp only [writeByte]
    split
    · next hac =>
      split
      · exact h
      · next hv =>
        refine wf_cons.2 ⟨?_, hv, h⟩
        intro d hd
        rcases List.mem_cons.1 hd with rfl | hd
        · exact hac
        · exact lt_trans hac (hlt d hd)
    · next hac =>
      split
      · next hEq =>
        split
        · exact hm
        · next hv => exact wf_cons.2 ⟨fun d hd => hEq ▸ hlt d hd, hv, hm⟩
      · next hEq =>
        refine wf_cons.2 ⟨?_, hne, ih hm⟩
        intro d hd
        rcases mem_writeByte hd with ⟨rfl, _⟩ | hd
        · exact lt_of_le_of_ne (Nat.le_of_not_lt hac) fun e => hEq e.symm
        · exact hlt d hd

/-- A read after a write to the same address gives the byte written. -/
theorem readByte_writeByte_same {m : Memory} (h : m.wf) (a : Nat) (v : Byte) : (m.writeByte a v).readByte a = v := by
  induction m with
  | nil =>
    simp only [writeByte]
    split
    · next hv => simp [readByte, hv]
    · simp [readByte]
  | cons c m ih =>
    obtain ⟨hlt, -, hm⟩ := wf_cons.1 h
    simp only [writeByte]
    split
    · next hac =>
      split
      · next hv =>
        rw [hv]
        refine readByte_of_below fun d hd => ?_
        rcases List.mem_cons.1 hd with rfl | hd
        · exact hac
        · exact lt_trans hac (hlt d hd)
      · simp [readByte]
    · split
      · next hEq =>
        split
        · next hv => rw [hv]; exact readByte_of_below fun d hd => hEq ▸ hlt d hd
        · simp [readByte]
      · next hEq => rw [readByte, if_neg fun e => hEq e.symm, ih hm]

/-- A write leaves every other address alone. -/
theorem readByte_writeByte_ne (m : Memory) {a b : Nat} (hab : b ≠ a) (v : Byte) :
    (m.writeByte a v).readByte b = m.readByte b := by
  induction m with
  | nil => simp only [writeByte]; split <;> simp [readByte, Ne.symm hab]
  | cons c m ih =>
    simp only [writeByte]
    split
    · split <;> simp [readByte, Ne.symm hab]
    · split
      · next hEq => split <;> simp [readByte, ← hEq, Ne.symm hab]
      · simp [readByte, ih]

/-! Words. -/

theorem wf_writeWord {m : Memory} (h : m.wf) (w : Nat) (v : Word) : (m.writeWord w v).wf :=
  wf_writeByte (wf_writeByte h _ _) _ _

theorem wordOfBytes_low_high (v : Word) : wordOfBytes (lowByte v) (highByte v) = v := by
  apply BitVec.eq_of_getLsbD_eq
  intro i hi
  simp only [wordOfBytes, lowByte, highByte, BitVec.getLsbD_append, BitVec.getLsbD_extractLsb']
  by_cases h : i < 8
  · simp [h]
  · have : i - 8 < 8 := by omega
    simp [h, this, show 8 + (i - 8) = i by omega]

theorem lowByte_wordOfBytes (lo hi : Byte) : lowByte (wordOfBytes lo hi) = lo := by
  apply BitVec.eq_of_getLsbD_eq
  intro i hi'
  simp only [wordOfBytes, lowByte, BitVec.getLsbD_append, BitVec.getLsbD_extractLsb']
  simp [hi']

theorem highByte_wordOfBytes (lo hi : Byte) : highByte (wordOfBytes lo hi) = hi := by
  apply BitVec.eq_of_getLsbD_eq
  intro i hi'
  simp only [wordOfBytes, highByte, BitVec.getLsbD_append, BitVec.getLsbD_extractLsb']
  simp [hi']

theorem readByte_writeWord_low {m : Memory} (h : m.wf) (w : Nat) (v : Word) :
    (m.writeWord w v).readByte (2 * w) = lowByte v := by
  rw [writeWord, readByte_writeByte_ne _ (by omega), readByte_writeByte_same h]

theorem readByte_writeWord_high {m : Memory} (h : m.wf) (w : Nat) (v : Word) :
    (m.writeWord w v).readByte (2 * w + 1) = highByte v := by
  rw [writeWord, readByte_writeByte_same (wf_writeByte h _ _)]

theorem readByte_writeWord_ne (m : Memory) {w a : Nat} (h0 : a ≠ 2 * w) (h1 : a ≠ 2 * w + 1) (v : Word) :
    (m.writeWord w v).readByte a = m.readByte a := by
  rw [writeWord, readByte_writeByte_ne _ h1, readByte_writeByte_ne _ h0]

/-- A word read after the same word was written. -/
theorem readWord_writeWord_same {m : Memory} (h : m.wf) (w : Nat) (v : Word) : (m.writeWord w v).readWord w = v := by
  rw [readWord, readByte_writeWord_low h, readByte_writeWord_high h, wordOfBytes_low_high]

/-- A word read after another word was written. -/
theorem readWord_writeWord_ne (m : Memory) {w u : Nat} (h : u ≠ w) (v : Word) :
    (m.writeWord w v).readWord u = m.readWord u := by
  rw [readWord, readWord, readByte_writeWord_ne _ (by omega) (by omega), readByte_writeWord_ne _ (by omega) (by omega)]

/-! Where addresses stay. -/

theorem bound_writeByte {m : Memory} {n a : Nat} (h : ∀ c ∈ m, c.1 < n) (ha : a < n) (v : Byte) :
    ∀ c ∈ m.writeByte a v, c.1 < n := by
  intro c hc
  rcases mem_writeByte hc with ⟨rfl, _⟩ | hc
  · exact ha
  · exact h c hc

theorem bound_writeWord {m : Memory} {n w : Nat} (h : ∀ c ∈ m, c.1 < 2 * n) (hw : w < n) (v : Word) :
    ∀ c ∈ m.writeWord w v, c.1 < 2 * n :=
  bound_writeByte (bound_writeByte h (by omega) _) (by omega) _

/-! Sequences of bytes. -/

theorem wf_writeBytes {m : Memory} (h : m.wf) (a : Nat) (vs : List Byte) : (m.writeBytes a vs).wf := by
  induction vs generalizing m a with
  | nil => exact h
  | cons v vs ih => exact ih (wf_writeByte h a v) (a + 1)

/-- The bytes placed by `writeBytes` are there, and every other byte is as before. -/
theorem readByte_writeBytes {m : Memory} (h : m.wf) (a : Nat) (vs : List Byte) (b : Nat) :
    (m.writeBytes a vs).readByte b = if a ≤ b ∧ b < a + vs.length then vs.getD (b - a) 0 else m.readByte b := by
  induction vs generalizing m a with
  | nil => rw [writeBytes, if_neg (by simp only [List.length_nil]; omega)]
  | cons v vs ih =>
    rw [writeBytes, ih (wf_writeByte h a v) (a + 1)]
    simp only [List.length_cons]
    by_cases hb : b = a
    · subst hb
      rw [if_neg (by omega), if_pos (by omega), readByte_writeByte_same h]
      simp
    · by_cases hin : a + 1 ≤ b ∧ b < a + 1 + vs.length
      · obtain ⟨k, hk⟩ : ∃ k, b - a = k + 1 := ⟨b - a - 1, by omega⟩
        rw [if_pos hin, if_pos (by omega), hk, show b - (a + 1) = k by omega]
        simp
      · rw [if_neg hin, if_neg (by omega), readByte_writeByte_ne _ hb]

/-- The memory of a program image lists no address below its base. -/
theorem le_of_mem_ofBytes {a : Nat} {vs : List Byte} {c : Host.Cell} (h : c ∈ ofBytes a vs) :
    a ≤ c.1 ∧ c.1 < a + vs.length := by
  induction vs generalizing a with
  | nil => simp [ofBytes] at h
  | cons v vs ih =>
    simp only [ofBytes] at h
    have step : c ∈ ofBytes (a + 1) vs → a ≤ c.1 ∧ c.1 < a + (v :: vs).length := fun hc => by
      have := ih hc
      simp only [List.length_cons]
      omega
    split at h
    · exact step h
    · rcases List.mem_cons.1 h with rfl | h
      · simp
      · exact step h

theorem wf_ofBytes (a : Nat) (vs : List Byte) : (ofBytes a vs).wf := by
  induction vs generalizing a with
  | nil => exact wf_nil
  | cons v vs ih =>
    simp only [ofBytes]
    split
    · exact ih (a + 1)
    · next hv => exact wf_cons.2 ⟨fun d hd => (le_of_mem_ofBytes hd).1, hv, ih (a + 1)⟩

end Memory

end Sys2Proof.Machine
end

