-- ==== Sys2Proof/Laws/PerInstr.lean ====
section
/-! SUPPORT. Laws made per instruction: an instruction's words decode back to it, and its number of operands is the operand
count of its opcode word (30_encoding.md R46, R47, R54). One lemma per constructor of `Instr`. -/

namespace Sys2Proof.Laws

/-- The k-th operand word of an instruction, counted from 1. -/
def argWord (i : Instr) (k : Nat) : Word := (i.operands.map Operand.word).getD (k - 1) 0

namespace WordRoundTrip

/-- The instruction read from an instruction's own words is that instruction. -/
def Statement (i : Instr) : Prop :=
  ∀ t : OpcodeTable, t.wf → i.wf t = true → instrOfWords t (i.opcodeWord t) (argWord i) = i

/-- A well-formed instruction has well-formed operands. -/
theorem operands_wf {t : OpcodeTable} {i : Instr} (h : i.wf t = true) : ∀ o ∈ i.operands, o.wf = true := by
  simp only [Instr.wf, Bool.and_eq_true, List.all_eq_true] at h
  exact h.2

theorem halt : Statement .halt := by
  intro t ht _
  simp only [instrOfWords, Instr.opcodeWord, OpcodeTable.opOf_numberOf ht, Op.instr]

theorem set (a b : Operand) : Statement (.set a b) := by
  intro t ht h
  simp only [instrOfWords, Instr.opcodeWord, OpcodeTable.opOf_numberOf ht, Op.instr, argWord, Instr.operands, List.map_cons, List.map_nil,
    List.getD_cons_zero, List.getD_cons_succ, Nat.reduceSub, decodeOperand_word (operands_wf h a (by simp [Instr.operands])), decodeOperand_word (operands_wf h b (by simp [Instr.operands]))]

theorem push (a : Operand) : Statement (.push a) := by
  intro t ht h
  simp only [instrOfWords, Instr.opcodeWord, OpcodeTable.opOf_numberOf ht, Op.instr, argWord, Instr.operands, List.map_cons, List.map_nil,
    List.getD_cons_zero, Nat.reduceSub, decodeOperand_word (operands_wf h a (by simp [Instr.operands]))]

theorem pop (a : Operand) : Statement (.pop a) := by
  intro t ht h
  simp only [instrOfWords, Instr.opcodeWord, OpcodeTable.opOf_numberOf ht, Op.instr, argWord, Instr.operands, List.map_cons, List.map_nil,
    List.getD_cons_zero, Nat.reduceSub, decodeOperand_word (operands_wf h a (by simp [Instr.operands]))]

theorem equalTo (a b c : Operand) : Statement (.equalTo a b c) := by
  intro t ht h
  simp only [instrOfWords, Instr.opcodeWord, OpcodeTable.opOf_numberOf ht, Op.instr, argWord, Instr.operands, List.map_cons, List.map_nil,
    List.getD_cons_zero, List.getD_cons_succ, Nat.reduceSub, decodeOperand_word (operands_wf h a (by simp [Instr.operands])), decodeOperand_word (operands_wf h b (by simp [Instr.operands])), decodeOperand_word (operands_wf h c (by simp [Instr.operands]))]

theorem greaterThan (a b c : Operand) : Statement (.greaterThan a b c) := by
  intro t ht h
  simp only [instrOfWords, Instr.opcodeWord, OpcodeTable.opOf_numberOf ht, Op.instr, argWord, Instr.operands, List.map_cons, List.map_nil,
    List.getD_cons_zero, List.getD_cons_succ, Nat.reduceSub, decodeOperand_word (operands_wf h a (by simp [Instr.operands])), decodeOperand_word (operands_wf h b (by simp [Instr.operands])), decodeOperand_word (operands_wf h c (by simp [Instr.operands]))]

theorem jumpTo (a : Operand) : Statement (.jumpTo a) := by
  intro t ht h
  simp only [instrOfWords, Instr.opcodeWord, OpcodeTable.opOf_numberOf ht, Op.instr, argWord, Instr.operands, List.map_cons, List.map_nil,
    List.getD_cons_zero, Nat.reduceSub, decodeOperand_word (operands_wf h a (by simp [Instr.operands]))]

theorem jumpToIfNotZero (a b : Operand) : Statement (.jumpToIfNotZero a b) := by
  intro t ht h
  simp only [instrOfWords, Instr.opcodeWord, OpcodeTable.opOf_numberOf ht, Op.instr, argWord, Instr.operands, List.map_cons, List.map_nil,
    List.getD_cons_zero, List.getD_cons_succ, Nat.reduceSub, decodeOperand_word (operands_wf h a (by simp [Instr.operands])), decodeOperand_word (operands_wf h b (by simp [Instr.operands]))]

theorem jumpToIfZero (a b : Operand) : Statement (.jumpToIfZero a b) := by
  intro t ht h
  simp only [instrOfWords, Instr.opcodeWord, OpcodeTable.opOf_numberOf ht, Op.instr, argWord, Instr.operands, List.map_cons, List.map_nil,
    List.getD_cons_zero, List.getD_cons_succ, Nat.reduceSub, decodeOperand_word (operands_wf h a (by simp [Instr.operands])), decodeOperand_word (operands_wf h b (by simp [Instr.operands]))]

theorem add (a b c : Operand) : Statement (.add a b c) := by
  intro t ht h
  simp only [instrOfWords, Instr.opcodeWord, OpcodeTable.opOf_numberOf ht, Op.instr, argWord, Instr.operands, List.map_cons, List.map_nil,
    List.getD_cons_zero, List.getD_cons_succ, Nat.reduceSub, decodeOperand_word (operands_wf h a (by simp [Instr.operands])), decodeOperand_word (operands_wf h b (by simp [Instr.operands])), decodeOperand_word (operands_wf h c (by simp [Instr.operands]))]

theorem multiply (a b c : Operand) : Statement (.multiply a b c) := by
  intro t ht h
  simp only [instrOfWords, Instr.opcodeWord, OpcodeTable.opOf_numberOf ht, Op.instr, argWord, Instr.operands, List.map_cons, List.map_nil,
    List.getD_cons_zero, List.getD_cons_succ, Nat.reduceSub, decodeOperand_word (operands_wf h a (by simp [Instr.operands])), decodeOperand_word (operands_wf h b (by simp [Instr.operands])), decodeOperand_word (operands_wf h c (by simp [Instr.operands]))]

theorem modulous (a b c : Operand) : Statement (.modulous a b c) := by
  intro t ht h
  simp only [instrOfWords, Instr.opcodeWord, OpcodeTable.opOf_numberOf ht, Op.instr, argWord, Instr.operands, List.map_cons, List.map_nil,
    List.getD_cons_zero, List.getD_cons_succ, Nat.reduceSub, decodeOperand_word (operands_wf h a (by simp [Instr.operands])), decodeOperand_word (operands_wf h b (by simp [Instr.operands])), decodeOperand_word (operands_wf h c (by simp [Instr.operands]))]

theorem and (a b c : Operand) : Statement (.and a b c) := by
  intro t ht h
  simp only [instrOfWords, Instr.opcodeWord, OpcodeTable.opOf_numberOf ht, Op.instr, argWord, Instr.operands, List.map_cons, List.map_nil,
    List.getD_cons_zero, List.getD_cons_succ, Nat.reduceSub, decodeOperand_word (operands_wf h a (by simp [Instr.operands])), decodeOperand_word (operands_wf h b (by simp [Instr.operands])), decodeOperand_word (operands_wf h c (by simp [Instr.operands]))]

theorem or (a b c : Operand) : Statement (.or a b c) := by
  intro t ht h
  simp only [instrOfWords, Instr.opcodeWord, OpcodeTable.opOf_numberOf ht, Op.instr, argWord, Instr.operands, List.map_cons, List.map_nil,
    List.getD_cons_zero, List.getD_cons_succ, Nat.reduceSub, decodeOperand_word (operands_wf h a (by simp [Instr.operands])), decodeOperand_word (operands_wf h b (by simp [Instr.operands])), decodeOperand_word (operands_wf h c (by simp [Instr.operands]))]

theorem not (a b : Operand) : Statement (.not a b) := by
  intro t ht h
  simp only [instrOfWords, Instr.opcodeWord, OpcodeTable.opOf_numberOf ht, Op.instr, argWord, Instr.operands, List.map_cons, List.map_nil,
    List.getD_cons_zero, List.getD_cons_succ, Nat.reduceSub, decodeOperand_word (operands_wf h a (by simp [Instr.operands])), decodeOperand_word (operands_wf h b (by simp [Instr.operands]))]

theorem readMemory (a b : Operand) : Statement (.readMemory a b) := by
  intro t ht h
  simp only [instrOfWords, Instr.opcodeWord, OpcodeTable.opOf_numberOf ht, Op.instr, argWord, Instr.operands, List.map_cons, List.map_nil,
    List.getD_cons_zero, List.getD_cons_succ, Nat.reduceSub, decodeOperand_word (operands_wf h a (by simp [Instr.operands])), decodeOperand_word (operands_wf h b (by simp [Instr.operands]))]

theorem writeMemory (a b : Operand) : Statement (.writeMemory a b) := by
  intro t ht h
  simp only [instrOfWords, Instr.opcodeWord, OpcodeTable.opOf_numberOf ht, Op.instr, argWord, Instr.operands, List.map_cons, List.map_nil,
    List.getD_cons_zero, List.getD_cons_succ, Nat.reduceSub, decodeOperand_word (operands_wf h a (by simp [Instr.operands])), decodeOperand_word (operands_wf h b (by simp [Instr.operands]))]

theorem call (a : Operand) : Statement (.call a) := by
  intro t ht h
  simp only [instrOfWords, Instr.opcodeWord, OpcodeTable.opOf_numberOf ht, Op.instr, argWord, Instr.operands, List.map_cons, List.map_nil,
    List.getD_cons_zero, Nat.reduceSub, decodeOperand_word (operands_wf h a (by simp [Instr.operands]))]

theorem ret : Statement .ret := by
  intro t ht _
  simp only [instrOfWords, Instr.opcodeWord, OpcodeTable.opOf_numberOf ht, Op.instr]

theorem output (a : Operand) : Statement (.output a) := by
  intro t ht h
  simp only [instrOfWords, Instr.opcodeWord, OpcodeTable.opOf_numberOf ht, Op.instr, argWord, Instr.operands, List.map_cons, List.map_nil,
    List.getD_cons_zero, Nat.reduceSub, decodeOperand_word (operands_wf h a (by simp [Instr.operands]))]

theorem input (a : Operand) : Statement (.input a) := by
  intro t ht h
  simp only [instrOfWords, Instr.opcodeWord, OpcodeTable.opOf_numberOf ht, Op.instr, argWord, Instr.operands, List.map_cons, List.map_nil,
    List.getD_cons_zero, Nat.reduceSub, decodeOperand_word (operands_wf h a (by simp [Instr.operands]))]

theorem noOperation : Statement .noOperation := by
  intro t ht _
  simp only [instrOfWords, Instr.opcodeWord, OpcodeTable.opOf_numberOf ht, Op.instr]

theorem unrecognizedOpcode (w : Word) : Statement (.unrecognizedOpcode w) := by
  intro t _ h
  have hw : t.opOf w = none := OpcodeTable.opOf_eq_none.2 (by
    simpa [Instr.wf, Instr.opcodeWf, Instr.operands] using h)
  simp only [instrOfWords, Instr.opcodeWord, hw]

end WordRoundTrip

namespace OperandCount

/-- The decoder learns the right number of operands from the opcode word alone. -/
def Statement (i : Instr) : Prop :=
  ∀ t : OpcodeTable, t.wf → i.wf t = true → operandCount t (i.opcodeWord t) = i.operands.length

theorem halt : Statement .halt := by
  intro t ht _
  simp only [operandCount, Instr.opcodeWord, OpcodeTable.opOf_numberOf ht]
  rfl

theorem set (a b : Operand) : Statement (.set a b) := by
  intro t ht _
  simp only [operandCount, Instr.opcodeWord, OpcodeTable.opOf_numberOf ht]
  rfl

theorem push (a : Operand) : Statement (.push a) := by
  intro t ht _
  simp only [operandCount, Instr.opcodeWord, OpcodeTable.opOf_numberOf ht]
  rfl

theorem pop (a : Operand) : Statement (.pop a) := by
  intro t ht _
  simp only [operandCount, Instr.opcodeWord, OpcodeTable.opOf_numberOf ht]
  rfl

theorem equalTo (a b c : Operand) : Statement (.equalTo a b c) := by
  intro t ht _
  simp only [operandCount, Instr.opcodeWord, OpcodeTable.opOf_numberOf ht]
  rfl

theorem greaterThan (a b c : Operand) : Statement (.greaterThan a b c) := by
  intro t ht _
  simp only [operandCount, Instr.opcodeWord, OpcodeTable.opOf_numberOf ht]
  rfl

theorem jumpTo (a : Operand) : Statement (.jumpTo a) := by
  intro t ht _
  simp only [operandCount, Instr.opcodeWord, OpcodeTable.opOf_numberOf ht]
  rfl

theorem jumpToIfNotZero (a b : Operand) : Statement (.jumpToIfNotZero a b) := by
  intro t ht _
  simp only [operandCount, Instr.opcodeWord, OpcodeTable.opOf_numberOf ht]
  rfl

theorem jumpToIfZero (a b : Operand) : Statement (.jumpToIfZero a b) := by
  intro t ht _
  simp only [operandCount, Instr.opcodeWord, OpcodeTable.opOf_numberOf ht]
  rfl

theorem add (a b c : Operand) : Statement (.add a b c) := by
  intro t ht _
  simp only [operandCount, Instr.opcodeWord, OpcodeTable.opOf_numberOf ht]
  rfl

theorem multiply (a b c : Operand) : Statement (.multiply a b c) := by
  intro t ht _
  simp only [operandCount, Instr.opcodeWord, OpcodeTable.opOf_numberOf ht]
  rfl

theorem modulous (a b c : Operand) : Statement (.modulous a b c) := by
  intro t ht _
  simp only [operandCount, Instr.opcodeWord, OpcodeTable.opOf_numberOf ht]
  rfl

theorem and (a b c : Operand) : Statement (.and a b c) := by
  intro t ht _
  simp only [operandCount, Instr.opcodeWord, OpcodeTable.opOf_numberOf ht]
  rfl

theorem or (a b c : Operand) : Statement (.or a b c) := by
  intro t ht _
  simp only [operandCount, Instr.opcodeWord, OpcodeTable.opOf_numberOf ht]
  rfl

theorem not (a b : Operand) : Statement (.not a b) := by
  intro t ht _
  simp only [operandCount, Instr.opcodeWord, OpcodeTable.opOf_numberOf ht]
  rfl

theorem readMemory (a b : Operand) : Statement (.readMemory a b) := by
  intro t ht _
  simp only [operandCount, Instr.opcodeWord, OpcodeTable.opOf_numberOf ht]
  rfl

theorem writeMemory (a b : Operand) : Statement (.writeMemory a b) := by
  intro t ht _
  simp only [operandCount, Instr.opcodeWord, OpcodeTable.opOf_numberOf ht]
  rfl

theorem call (a : Operand) : Statement (.call a) := by
  intro t ht _
  simp only [operandCount, Instr.opcodeWord, OpcodeTable.opOf_numberOf ht]
  rfl

theorem ret : Statement .ret := by
  intro t ht _
  simp only [operandCount, Instr.opcodeWord, OpcodeTable.opOf_numberOf ht]
  rfl

theorem output (a : Operand) : Statement (.output a) := by
  intro t ht _
  simp only [operandCount, Instr.opcodeWord, OpcodeTable.opOf_numberOf ht]
  rfl

theorem input (a : Operand) : Statement (.input a) := by
  intro t ht _
  simp only [operandCount, Instr.opcodeWord, OpcodeTable.opOf_numberOf ht]
  rfl

theorem noOperation : Statement .noOperation := by
  intro t ht _
  simp only [operandCount, Instr.opcodeWord, OpcodeTable.opOf_numberOf ht]
  rfl

theorem unrecognizedOpcode (w : Word) : Statement (.unrecognizedOpcode w) := by
  intro t _ h
  have hw : t.opOf w = none := OpcodeTable.opOf_eq_none.2 (by
    simpa [Instr.wf, Instr.opcodeWf, Instr.operands] using h)
  simp only [operandCount, Instr.opcodeWord, hw]
  rfl

end OperandCount

end Sys2Proof.Laws
end

