-- ==== Sys2Proof/Machine/Asm.lean ====
section
/-! DEFINITION. The spec's assembly syntax as structure: lines, labels, `.word`, and the words they stand for
(spec/30_encoding.md R53, a decision of the spec, D20). Nothing in the machine depends on it; comments and the reading of
decimal or hexadecimal digits are text and have no counterpart here. -/

namespace Sys2Proof.Machine

/-- An operand as written: a register `r0` .. `r7`, a literal, or a label that stands for its word address. -/
inductive AsmArg where
  | reg (i : RegIndex)
  | lit (v : Nat)
  | label (name : String)
  deriving DecidableEq, Repr

/-- A line: `label:`, `<Mnemonic> <operand> ...`, or `.word v`. -/
inductive AsmLine where
  | label (name : String)
  | instr (o : Op) (args : List AsmArg)
  | word (v : Nat)
  deriving DecidableEq, Repr

/-- The words a line takes. -/
def AsmLine.size : AsmLine → Nat
  | .label _ => 0
  | .instr o _ => 1 + o.arity
  | .word _ => 1

/-- The word address a label names, in lines placed from word address `at0` on. -/
def labelAddress (name : String) : List AsmLine → Nat → Option Nat
  | [], _ => none
  | l :: ls, at0 => if l = .label name then some at0 else labelAddress name ls (at0 + l.size)

/-- A literal operand, 0 .. 32767. -/
def asmLiteral (v : Nat) : Option Operand := if v ≤ litMax then some (.lit (BitVec.ofNat 15 v)) else none

/-- The operand an argument stands for, among the lines of its program. -/
def AsmArg.operand (ls : List AsmLine) : AsmArg → Option Operand
  | .reg i => some (.reg i)
  | .lit v => asmLiteral v
  | .label name => (labelAddress name ls 0).bind asmLiteral

/-- The words a line stands for: an instruction with exactly the operands of its format, or a raw word 0 .. 65535. -/
def AsmLine.words (t : OpcodeTable) (ls : List AsmLine) : AsmLine → Option (List Word)
  | .label _ => some []
  | .instr o args =>
    if args.length = o.arity then (args.mapM (AsmArg.operand ls)).map fun ops => t.numberOf o :: ops.map Operand.word else none
  | .word v => if v ≤ 65535 then some [BitVec.ofNat 16 v] else none

/-- The words of a program placed at word address 0. -/
def assemble (t : OpcodeTable) (ls : List AsmLine) : Option (List Word) :=
  (ls.mapM (AsmLine.words t ls)).map List.flatten

/-- The mnemonic of an opcode: the document's name (R49). -/
def Op.mnemonic : Op → String
  | .halt => "Halt" | .set => "Set" | .push => "Push" | .pop => "Pop" | .equalTo => "EqualTo" | .greaterThan => "GreaterThan"
  | .jumpTo => "JumpTo" | .jumpToIfNotZero => "JumpToIfNotZero" | .jumpToIfZero => "JumpToIfZero" | .add => "Add"
  | .multiply => "Multiply" | .modulous => "Modulous" | .and => "And" | .or => "Or" | .not => "Not"
  | .readMemory => "ReadMemory" | .writeMemory => "WriteMemory" | .call => "Call" | .ret => "Return" | .output => "Output"
  | .input => "Input" | .noOperation => "NoOperation"

end Sys2Proof.Machine
end

