-- ==== Sys2Proof/Tests/Slice0.lean ====
section
/-! SUPPORT. Tests. Expected values are those of spec/95_test_vectors.md (its section in each docstring) or of the spec's
tables; then one witness for each statement of Certificates/Slice0/Obligations.lean that has hypotheses. -/

namespace Sys2Proof.Machine

/-! ## Helpers -/

/-- The state a step answers, if it answers one. -/
def after : Result → Option State
  | .next s => some s
  | _ => none

/-- Words as memory bytes. -/
def wordBytes (ws : List Word) : List Byte := ws.flatMap bytesOfWord

/-- A state with words placed from its pc on. -/
def State.withWords (s : State) (ws : List Word) : State := s.setMem (s.mem.writeBytes (2 * s.pc.toNat) (wordBytes ws))

/-- One step from reset with words placed at 0. -/
def stepFrom (ws : List Word) : Option State := after (step (State.reset.withWords ws))

/-- A state in the middle of a run: registers in and out of the normal range, room for one more stack entry, words to read
and an output, and the debug trace on. -/
def busy : State :=
  { State.reset with cfg := { Config.document with stackDepth := some 2 }, regs := #v[0, 32767, 777, 32766, 100, 64, 32768, 9],
                     stack := [7], pc := 20, input := [104, 65535], output := [65], debugOn := true }

/-- The same with the stack at its depth. -/
def busyFull : State := { busy with stack := [300, 7] }

/-! ## Well-formedness refuses ill-formed terms -/

/-- 30_encoding.md R48: 32775 is register 7 and not an invalid word; 32776 is one. -/
theorem test_wf_invalid_operand :
    (Operand.invalid 32775).wf = false ∧ (Operand.invalid 0).wf = false ∧ (Operand.invalid 32776).wf = true := by decide

/-- R50: 21 is NoOperation, 22 is no opcode. -/
theorem test_wf_unrecognized_opcode :
    (Instr.unrecognizedOpcode 21).wf opcodeTable = false ∧ (Instr.unrecognizedOpcode 22).wf opcodeTable = true := by decide

/-- The operands are looked at in every position. -/
theorem test_wf_every_position :
    (Instr.add (.invalid 1) (.lit 0) (.lit 0)).wf opcodeTable = false ∧
    (Instr.add (.lit 0) (.invalid 1) (.lit 0)).wf opcodeTable = false ∧
    (Instr.add (.lit 0) (.lit 0) (.invalid 1)).wf opcodeTable = false ∧
    (Instr.add (.lit 0) (.lit 0) (.lit 0)).wf opcodeTable = true := by decide

/-- R51: an invalid word is encodable and not legal. -/
theorem test_legal : (Instr.set (.reg 0) (.invalid 65535)).legal = false ∧ (Instr.set (.reg 0) (.lit 5)).legal = true := by decide

/-- A numbering that gives two opcodes one number, or misses one, is not usable. -/
theorem test_wf_numbering :
    ¬ OpcodeTable.wf (opcodeTable.map fun row => (row.1, 0)) ∧ ¬ OpcodeTable.wf (opcodeTable.drop 1) ∧
    OpcodeTable.wf opcodeTable := by decide

/-- 00_scope.md R3: no memory, too much of it, a ceiling beyond it. -/
theorem test_wf_config :
    ¬ Config.wf { Config.document with memWords := 0, pcCeiling := 0 } ∧ ¬ Config.wf { Config.document with memWords := 32769 } ∧
    ¬ Config.wf { Config.document with pcCeiling := 32768 } ∧ Config.wf Config.document ∧
    Config.wf { Config.document with memWords := 32768, pcCeiling := 32768 } := by decide

/-! ## Decoding: a word of every constructor, written out from 30_encoding.md R46, R48, R49 (first word lowest) -/

theorem test_decode_F0 :
    decodeTableWord 16 0x0000 = some .halt ∧ decodeTableWord 16 0x0012 = some .ret ∧
    decodeTableWord 16 0x0015 = some .noOperation ∧ decodeTableWord 16 0x0016 = some (.unrecognizedOpcode 0x0016) ∧
    decodeTableWord 16 0xFFFF = some (.unrecognizedOpcode 0xFFFF) := by decide

theorem test_decode_F1 :
    decodeTableWord 32 0x7FFF0002 = some (.push (.lit 0x7FFF)) ∧ decodeTableWord 32 0x80070003 = some (.pop (.reg 7)) ∧
    decodeTableWord 32 0x80050006 = some (.jumpTo (.reg 5)) ∧ decodeTableWord 32 0x80020011 = some (.call (.reg 2)) ∧
    decodeTableWord 32 0x00410013 = some (.output (.lit 65)) ∧ decodeTableWord 32 0x80030014 = some (.input (.reg 3)) := by decide

theorem test_decode_F2 :
    decodeTableWord 48 0x800180000001 = some (.set (.reg 0) (.reg 1)) ∧
    decodeTableWord 48 0x003280000007 = some (.jumpToIfNotZero (.reg 0) (.lit 50)) ∧
    decodeTableWord 48 0x000700000008 = some (.jumpToIfZero (.lit 0) (.lit 7)) ∧
    decodeTableWord 48 0x80008002000E = some (.not (.reg 2) (.reg 0)) ∧
    decodeTableWord 48 0x7FFE8000000F = some (.readMemory (.reg 0) (.lit 0x7FFE)) ∧
    decodeTableWord 48 0x8001012C0010 = some (.writeMemory (.lit 300) (.reg 1)) := by decide

theorem test_decode_F3 :
    decodeTableWord 64 0x000A800080010004 = some (.equalTo (.reg 1) (.reg 0) (.lit 10)) ∧
    decodeTableWord 64 0x0003000580020005 = some (.greaterThan (.reg 2) (.lit 5) (.lit 3)) ∧
    decodeTableWord 64 0x8001800080000009 = some (.add (.reg 0) (.reg 0) (.reg 1)) ∧
    decodeTableWord 64 0x00C8012C8001000A = some (.multiply (.reg 1) (.lit 300) (.lit 200)) ∧
    decodeTableWord 64 0x000500118000000B = some (.modulous (.reg 0) (.lit 17) (.lit 5)) ∧
    decodeTableWord 64 0x000A000C8000000C = some (.and (.reg 0) (.lit 12) (.lit 10)) ∧
    decodeTableWord 64 0x000A000C8000000D = some (.or (.reg 0) (.lit 12) (.lit 10)) ∧
    decodeTableWord 64 0x0001FFFF80000009 = some (.add (.reg 0) (.invalid 0xFFFF) (.lit 1)) := by decide

/-- The bytes of part 3, P1, "01 00 00 80 05 00 …": low byte first, and the rest handed back. -/
theorem test_decode_bytes :
    decode opcodeTable [0x01, 0x00, 0x00, 0x80, 0x05, 0x00, 0x01] = .ok (.set (.reg 0) (.lit 5), [0x01]) ∧
    decode opcodeTable [0x13] = .error .noOpcodeWord ∧
    decode opcodeTable [0x13, 0x00, 0x00] = .error .missingOperandWord := by decide

/-- The bytes of part 3, P3, for Multiply and Return. -/
theorem test_encode_bytes :
    encode opcodeTable (.multiply (.reg 0) (.reg 0) (.reg 0)) = [0x0A, 0x00, 0x00, 0x80, 0x00, 0x80, 0x00, 0x80] ∧
    encode opcodeTable .ret = [0x12, 0x00] := by decide

/-- The words of part 3, P1, from its text (R53). -/
theorem test_assemble_P1 :
    assemble opcodeTable
      [.instr .set [.reg 0, .lit 5], .instr .set [.reg 1, .lit 6], .instr .add [.reg 0, .reg 0, .reg 1],
       .instr .output [.reg 0], .label "end", .instr .halt []] =
      some [1, 32768, 5, 1, 32769, 6, 9, 32768, 32768, 32769, 19, 32768, 0] := by decide

/-- R53: a label is the word address that follows it; a literal stops at 32767; the operands are as many as the format's. -/
theorem test_assemble_labels :
    assemble opcodeTable [.instr .noOperation [], .label "l", .instr .jumpTo [.label "l"], .word 65535] =
      some [21, 6, 1, 65535] ∧
    assemble opcodeTable [.instr .push [.lit 32768]] = none ∧ assemble opcodeTable [.instr .push []] = none := by decide

/-! ## One step each (95_test_vectors.md part 2) -/

/-- 2.3 -/
theorem test_set : (stepFrom [1, 32768, 5]).map (fun t => (t.regs[0], t.pc)) = some (5, 3) := by decide

/-- 2.3: a literal destination. -/
theorem test_set_literal :
    (stepFrom [1, 5, 6]).map (fun t => (t.regs.toList, t.pc, t.err)) = some ([0, 0, 0, 0, 0, 0, 0, 0], 3, .none) := by decide

/-- 2.3 -/
theorem test_push :
    (after (exec (.push (.reg 1)) { State.reset with regs := #v[0, 300, 0, 0, 0, 0, 0, 0], stack := [7] })).map (·.stack) =
      some [300, 7] := by decide

/-- 2.3 -/
theorem test_pop :
    (after (exec (.pop (.reg 4)) { State.reset with stack := [300, 7] })).map (fun t => (t.regs[4], t.stack)) =
      some (300, [7]) := by decide

/-- 2.3: under a literal nothing is popped. -/
theorem test_pop_literal : (after (exec (.pop (.lit 9)) { State.reset with stack := [4] })).map (·.stack) = some [4] := by decide

/-- 2.4 -/
theorem test_equalTo :
    (stepFrom [4, 32768, 7, 7]).map (fun t => (t.regs[0], t.pc)) = some (1, 4) ∧
    (after (exec (.equalTo (.reg 0) (.reg 6) (.lit 32767)) busy)).map (fun t => t.regs[0]) = some 0 := by decide

/-- 2.4: the order of the operands, and an unsigned 16-bit comparison. -/
theorem test_greaterThan :
    (stepFrom [5, 32768, 7, 8]).map (fun t => t.regs[0]) = some 0 ∧
    (after (exec (.greaterThan (.reg 0) (.reg 6) (.lit 32767)) busy)).map (fun t => t.regs[0]) = some 1 := by decide

/-- 2.5 -/
theorem test_jumpTo : (after (exec (.jumpTo (.reg 5)) busy)).map (·.pc) = some 64 := by decide

/-- 2.5: taken and not taken. -/
theorem test_jumpToIfNotZero :
    (stepFrom [7, 32767, 50]).map (·.pc) = some 50 ∧ (stepFrom [7, 32768, 50]).map (·.pc) = some 3 := by decide

/-- 2.5: source property S8, and not taken. -/
theorem test_jumpToIfZero :
    (stepFrom [8, 0, 7]).map (·.pc) = some 7 ∧ (stepFrom [8, 5, 50]).map (·.pc) = some 3 := by decide

/-- 2.6 -/
theorem test_add :
    (stepFrom [9, 32768, 32767, 32767]).map (fun t => t.regs[0]) = some 32766 ∧
    (after (exec (.add (.reg 6) (.reg 6) (.lit 1)) busy)).map (fun t => t.regs[6]) = some 1 := by decide

/-- 2.6 -/
theorem test_multiply :
    (stepFrom [10, 32769, 300, 200]).map (fun t => t.regs[1]) = some 27232 ∧
    (stepFrom [10, 32768, 181, 182]).map (fun t => t.regs[0]) = some 174 := by decide

/-- 2.6 -/
theorem test_modulous :
    (stepFrom [11, 32768, 17, 5]).map (fun t => t.regs[0]) = some 2 ∧
    (stepFrom [11, 32768, 5, 17]).map (fun t => t.regs[0]) = some 5 := by decide

/-- 2.6: a zero divisor under a register, and under a literal. -/
theorem test_modulous_zero :
    (stepFrom [11, 32768, 5, 0]).map (fun t => (t.regs[0], t.pc, t.err)) = some (0, 4, .divideByZero) ∧
    (stepFrom [11, 7, 5, 0]).map (·.err) = some .none := by decide

/-- 2.6 -/
theorem test_and :
    (stepFrom [12, 32768, 12, 10]).map (fun t => t.regs[0]) = some 8 ∧
    (stepFrom [12, 32768, 21845, 10922]).map (fun t => t.regs[0]) = some 0 := by decide

/-- 2.6 -/
theorem test_or :
    (stepFrom [13, 32768, 12, 10]).map (fun t => t.regs[0]) = some 14 ∧
    (stepFrom [13, 32768, 21845, 10922]).map (fun t => t.regs[0]) = some 32767 := by decide

/-- 2.6: 15 bits inverted, bit 15 kept. -/
theorem test_not :
    (stepFrom [14, 32768, 21845]).map (fun t => t.regs[0]) = some 10922 ∧
    (after (exec (.not (.reg 0) (.reg 6)) busy)).map (fun t => t.regs[0]) = some 65535 := by decide

/-- 2.7: its own operand word, out of the normal range. -/
theorem test_readMemory :
    (stepFrom [15, 32768, 1]).map (fun t => t.regs[0]) = some 32768 := by decide

/-- 2.7: one past the last word, under a register and under a literal. -/
theorem test_readMemory_out_of_range :
    (stepFrom [15, 32768, 32767]).map (fun t => (t.pc, t.err)) = some (3, .addressOutOfRange) ∧
    (stepFrom [15, 9, 32767]).map (·.err) = some .none := by decide

/-- 2.7: bytes 65532 and 65533 are FF 7F. -/
theorem test_writeMemory :
    (stepFrom [16, 32766, 32767]).map (fun t => (t.mem.readByte 65532, t.mem.readByte 65533)) = some (0xFF, 0x7F) := by decide

/-- 2.7: one past the last word. -/
theorem test_writeMemory_out_of_range :
    (stepFrom [16, 32767, 1]).map (fun t => (t.mem.readByte 65534, t.err)) = some (0, .addressOutOfRange) := by decide

/-- 2.8: at address 10, r2 = 777 here in place of 55. -/
theorem test_call :
    (after (step ({ busy with pc := 10 }.withWords [17, 32770]))).map (fun t => (t.stack, t.pc)) = some ([12, 7], 777) := by decide

/-- 2.8 -/
theorem test_ret :
    (after (exec .ret { State.reset with stack := [12, 5] })).map (fun t => (t.stack, t.pc)) = some ([5], 12) ∧
    (after (step ({ State.reset with pc := 30 }.withWords [18]))).map (fun t => (t.halt, t.pc, t.err)) =
      some (true, 31, .none) := by decide

/-- 2.9 -/
theorem test_halt :
    (after (step ({ State.reset with pc := 3 }.withWords [0]))).map (fun t => (t.halt, t.pc)) = some (true, 4) := by decide

/-- 2.9 -/
theorem test_output : (stepFrom [19, 65]).map (·.output) = some [65] := by decide

/-- 2.9: into a register; and with no word there the machine waits, pc past the instruction (part 3, P5). -/
theorem test_input :
    (after (exec (.input (.reg 0)) busy)).map (fun t => (t.regs[0], t.input)) = some (104, [65535]) ∧
    (stepFrom [20, 32768]).map (fun t => (t.waiting, t.pc, t.halt, t.err)) = some (some (.reg 0 0), 2, false, .none) := by decide

/-- 2.9: under a literal the word is consumed and dropped. -/
theorem test_input_literal :
    (after (exec (.input (.lit 5)) { State.reset with input := [104, 105] })).map (fun t => (t.regs.toList, t.input)) =
      some ([0, 0, 0, 0, 0, 0, 0, 0], [105]) := by decide

/-- 2.9 -/
theorem test_noOperation :
    after (step ({ State.reset with pc := 4 }.withWords [21])) =
      some { State.reset.setMem [(8, 21)] with pc := 5 } := by decide

/-- 2.9 -/
theorem test_unrecognizedOpcode :
    (stepFrom [22]).map (fun t => (t.err, t.pc, t.halt)) = some (.invalidOpcode, 1, false) ∧
    (stepFrom [32768]).map (fun t => (t.err, t.pc)) = some (.invalidOpcode, 1) := by decide

/-! ## Fetch (2.2, 2.10) -/

/-- 2.10: DecodeError stays although the operands decoded after it are valid, and pc moves on. -/
theorem test_decodeError_sticky :
    (after (step (State.reset.withWords [7, 0, 40000]))).map (fun t => (t.err, t.pc)) = some (.decodeError, 3) := by decide

/-- 2.2: the ceiling; pc stays. -/
theorem test_ceiling :
    (after (step { State.reset with pc := 32767 })).map (fun t => (t.halt, t.pc)) = some (true, 32767) ∧
    (after (step { State.reset with pc := 40000 })).map (fun t => (t.halt, t.pc)) = some (true, 40000) := by decide

/-- 2.2: Push straddles the end of memory. -/
theorem test_straddle :
    (after (step ({ State.reset with pc := 32766 }.withWords [2]))).map (fun t => (t.err, t.pc, t.stack)) =
      some (.fetchOutOfRange, 32768, []) := by decide

/-- 2.2: NoOperation and an Add with its last operand word last in memory do not. -/
theorem test_no_straddle :
    (after (step ({ State.reset with pc := 32766 }.withWords [21]))).map (fun t => (t.err, t.pc)) = some (.none, 32767) ∧
    (after (step ({ State.reset with pc := 32763 }.withWords [9, 32768, 1, 2]))).map (fun t => (t.err, t.pc, t.regs[0])) =
      some (.none, 32767, 3) := by decide

/-- 20_memory.md R31: M[5] = 0x1234 is byte 10 = 34, byte 11 = 12 (2.7). -/
theorem test_little_endian :
    (Memory.writeWord [] 5 0x1234).readByte 10 = 0x34 ∧ (Memory.writeWord [] 5 0x1234).readByte 11 = 0x12 ∧
    Memory.writeWord [(10, 0x34), (11, 0x12)] 5 0 = [] := by decide

/-- 20_memory.md R35: an odd image ends in a low byte; a longer image than MEM_BYTES is refused. -/
theorem test_launch :
    (after (launch [0x13, 0x00, 0x41] [] false State.reset)).map (fun t => t.mem.readWord 1) = some 0x0041 ∧
    after (launch [1, 2, 3] [] false { State.reset with cfg := { Config.document with memWords := 1, pcCeiling := 1 } }) =
      none := by decide

/-! ## Witnesses: a concrete state and operands for the hypotheses of each statement -/

/-- Register 6 of `busy` holds a value out of the normal range. -/
theorem busy_carries : Carries busy (.reg 6) 32768 ∧ Carries busy (.reg 1) 32767 ∧ Carries busy (.lit 32767) 32767 ∧
    Carries busy (.reg 0) 0 ∧ Carries busy (.lit 0) 0 := ⟨rfl, rfl, rfl, rfl, rfl⟩

theorem busy_room : RoomOnStack busy := fun _ h => by cases h; decide

/-- The words at the ends of the three ranges, a state without an error, and an opcode word that looks like register 0. -/
theorem witness_OperandWordKinds :
    (0 : Word).toNat ≤ 32767 ∧ (32767 : Word).toNat ≤ 32767 ∧
    (32768 ≤ (32768 : Word).toNat ∧ (32768 : Word).toNat ≤ 32775) ∧ (32768 ≤ (32775 : Word).toNat ∧ (32775 : Word).toNat ≤ 32775) ∧
    32776 ≤ (32776 : Word).toNat ∧ 32776 ≤ (65535 : Word).toNat ∧ busy.err = .none ∧
    (32768 : Word) ∉ opcodeTable.map Prod.snd := by decide

theorem witness_OperandCountGroups : (22 : Word) ∉ opcodeTable.map Prod.snd ∧ (65535 : Word) ∉ opcodeTable.map Prod.snd := by decide

theorem witness_DecodeAfterEncode :
    opcodeTable.wf ∧ (Instr.add (.lit 32767) (.reg 7) (.invalid 65535)).wf opcodeTable = true ∧
    (Instr.unrecognizedOpcode 22).wf opcodeTable = true := by decide

theorem witness_EncodeAfterDecode :
    opcodeTable.wf ∧ decode opcodeTable [0x02, 0x00, 0x08, 0x80, 0xAA] = .ok (.push (.invalid 0x8008), [0xAA]) := by decide

/-- Bytes 65532 and 65533 are the last word. -/
def topByte : Memory := [(0, 1), (65533, 255)]

theorem witness_MemoryIsLittleEndian :
    topByte.wf ∧ (0 : Nat) ≠ 2 * 32766 ∧ (0 : Nat) ≠ 2 * 32766 + 1 ∧ (65534 : Nat) ≠ 2 * 32766 + 1 := by decide

theorem witness_CanonicalMemoryIsUnique :
    topByte.wf ∧ ((Memory.writeByte [] 65533 255).writeByte 0 1).wf ∧
    ∀ a, topByte.readByte a = ((Memory.writeByte [] 65533 255).writeByte 0 1).readByte a := ⟨by decide, by decide, fun _ => rfl⟩

theorem witness_SetCopiesSource :
    ((Operand.reg 7).legal = true ∧ (Operand.lit 5).legal = true ∧ Carries busy (.reg 6) 32768) ∧
    (Instr.set (.invalid 32776) (.lit 0)).legal = false ∧ (Instr.set (.reg 0) (.invalid 65535)).legal = false ∧ busy.err = .none :=
  ⟨⟨rfl, rfl, rfl⟩, rfl, rfl, rfl⟩

theorem witness_PushPushesOrOverflows :
    (Carries busy (.reg 6) 32768 ∧ RoomOnStack busy) ∧
    ((Operand.lit 7).legal = true ∧ busyFull.cfg.stackDepth = some 2 ∧ 2 ≤ busyFull.stack.length) :=
  ⟨⟨rfl, busy_room⟩, by decide⟩

theorem witness_PopTakesTop : busyFull.stack = 300 :: [7] ∧ State.reset.stack = [] := by decide

theorem witness_PushesThenPopsReverse : State.reset.cfg.stackDepth = none := rfl

/-- Equal, greater by the highest bit, and less. -/
theorem witness_ComparisonsWriteOneOrZero :
    ((Operand.reg 0).legal = true ∧ Carries busy (.reg 1) 32767 ∧ Carries busy (.lit 32767) 32767 ∧
      (32767 : Word).toNat = (32767 : Word).toNat) ∧
    ((Operand.lit 3).legal = true ∧ Carries busy (.reg 6) 32768 ∧ Carries busy (.reg 1) 32767 ∧
      (32768 : Word).toNat ≠ (32767 : Word).toNat ∧ (32768 : Word).toNat > (32767 : Word).toNat) ∧
    (32767 : Word).toNat ≤ (32768 : Word).toNat := ⟨⟨rfl, rfl, rfl, rfl⟩, ⟨rfl, rfl, rfl, by decide, by decide⟩, by decide⟩

theorem witness_JumpsSetPc :
    Carries busy (.reg 5) 64 ∧ (Carries busy (.lit 32767) 32767 ∧ Carries busy (.lit 50) 50 ∧ (32767 : Word).toNat ≠ 0) ∧
    (Carries busy (.reg 0) 0 ∧ Carries busy (.reg 6) 32768 ∧ (0 : Word).toNat = 0) :=
  ⟨rfl, ⟨rfl, rfl, by decide⟩, rfl, rfl, rfl⟩

theorem witness_AddMultiplyModulo :
    (Operand.reg 6).legal = true ∧ Carries busy (.reg 6) 32768 ∧ Carries busy (.lit 32767) 32767 := ⟨rfl, rfl, rfl⟩

theorem witness_ModulousRemainderOrError :
    (Operand.reg 0).legal = true ∧ (Carries busy (.reg 6) 32768 ∧ Carries busy (.lit 1) 1 ∧ (1 : Word).toNat ≠ 0) ∧
    (Operand.lit 32767).legal = true ∧ Carries busy (.reg 0) 0 := ⟨rfl, ⟨rfl, rfl, by decide⟩, rfl, rfl⟩

theorem witness_LogicIsBitwise :
    (Operand.reg 0).legal = true ∧ Carries busy (.reg 6) 32768 ∧ Carries busy (.lit 21845) 21845 := ⟨rfl, rfl, rfl⟩

/-- The last word of memory, and the first address past it. -/
theorem witness_ReadMemoryLoadsWord :
    (Carries busy (.reg 3) 32766 ∧ (32766 : Word).toNat < busy.cfg.memWords) ∧
    (Carries busy (.reg 1) 32767 ∧ busy.cfg.memWords ≤ (32767 : Word).toNat) ∧ (Operand.lit 32767).legal = true :=
  ⟨⟨rfl, by decide⟩, ⟨rfl, by decide⟩, rfl⟩

theorem witness_WriteMemoryStoresWord :
    (busy.mem.wf ∧ Carries busy (.lit 32766) 32766 ∧ Carries busy (.reg 6) 32768 ∧ (32766 : Word).toNat < busy.cfg.memWords) ∧
    (Carries busy (.lit 32767) 32767 ∧ (Operand.reg 6).legal = true ∧ busy.cfg.memWords ≤ (32767 : Word).toNat) :=
  ⟨⟨by decide, rfl, rfl, by decide⟩, rfl, rfl, by decide⟩

/-- Push at 32765 with its operand word, the last of memory, stored beforehand; and a stored word that is no opcode. -/
theorem witness_StoreSeenByNextFetch :
    let s := busy.setMem [(65530, 2)]
    (s.mem.wf ∧ Carries s (.lit 32766) 32766 ∧ Carries s (.reg 6) 32768 ∧ (32766 : Word).toNat < s.cfg.memWords) ∧
    (∃ t, exec (.writeMemory (.lit 32766) (.reg 6)) s = .next t ∧
      (1 ≤ fetchCount { t with pc := 32765 } ∧ (32765 : Word).toNat + 1 = (32766 : Word).toNat)) ∧
    (32768 : Word) ∉ s.cfg.opcodes.map Prod.snd :=
  ⟨⟨by decide, rfl, rfl, by decide⟩, ⟨_, rfl, by decide⟩, by decide⟩

theorem witness_CallPushesAndJumps :
    (Carries busy (.reg 2) 777 ∧ RoomOnStack busy) ∧
    ((Operand.lit 100).legal = true ∧ busyFull.cfg.stackDepth = some 2 ∧ 2 ≤ busyFull.stack.length) :=
  ⟨⟨rfl, busy_room⟩, by decide⟩

theorem witness_ReturnPopsOrHalts : busyFull.stack = 300 :: [7] ∧ State.reset.stack = [] := by decide

/-- The subroutine may change anything but the stack. -/
theorem witness_CallThenReturnRestores :
    Carries busy (.lit 100) 100 ∧ RoomOnStack busy ∧
    ∃ t, exec (.call (.lit 100)) busy = .next t ∧ ({ State.reset with stack := [20, 7] }).stack = t.stack :=
  ⟨rfl, busy_room, _, rfl, rfl⟩

theorem witness_OutputAppendsValue : Carries busy (.reg 6) 32768 := rfl

theorem witness_InputTakesOneWord :
    ((Operand.reg 0).legal = true ∧ (Operand.lit 5).legal = true) ∧ busy.waiting = none ∧ busy.input = 104 :: [65535] := by decide

/-- `busy` with no word left, before the Input and while it waits. -/
theorem witness_InputWaitsForDelivery :
    ((Operand.reg 7).legal = true ∧ ({ busy with input := [] }).input = []) ∧
    (let s := { busy with input := [], waiting := some (.reg 7 9) }
     s.waiting = some (.reg 7 9) ∧ s.input = []) ∧
    (let s := { busy with input := [], waiting := some (.lit 5) }
     s.waiting = some (.lit 5) ∧ s.input = []) ∧
    busy.waiting = none := by decide

theorem witness_LiteralDestinationWritesNothing :
    ((Instr.modulous (.lit 32767) (.lit 5) (.lit 0)).dest = some (.lit 32767) ∧
      (Instr.modulous (.lit 32767) (.lit 5) (.lit 0)).legal = true ∧
      ∀ a, Instr.modulous (.lit 32767) (.lit 5) (.lit 0) ≠ .input a) ∧
    ((Instr.readMemory (.lit 0) (.lit 32767)).dest = some (.lit 0) ∧ (Instr.readMemory (.lit 0) (.lit 32767)).legal = true ∧
      ∀ a, Instr.readMemory (.lit 0) (.lit 32767) ≠ .input a) ∧
    (busy.waiting = none ∧ busy.input = 104 :: [65535]) :=
  ⟨⟨rfl, rfl, nofun⟩, ⟨rfl, rfl, nofun⟩, rfl, rfl⟩

theorem witness_OnlyDestinationRegisterChanges :
    ((∃ t, exec (.push (.lit 1)) busy = .next t) ∧ (Instr.push (.lit 1)).dest = none) ∧
    ((∃ t, exec (.set (.lit 1) (.lit 2)) busy = .next t) ∧ (Instr.set (.lit 1) (.lit 2)).dest = some (.lit 1)) ∧
    ((∃ t, exec (.pop (.reg 7)) busy = .next t ∧ t.regs ≠ busy.regs) ∧ (Instr.pop (.reg 7)).dest = some (.reg 7)) :=
  ⟨⟨⟨_, rfl⟩, rfl⟩, ⟨⟨_, rfl⟩, rfl⟩, ⟨_, rfl, by decide⟩, rfl⟩

/-- The last word stored to, the first address past it, and an instruction that is no WriteMemory. -/
theorem witness_OnlyWriteMemoryChangesMemory :
    ((∃ t, exec (.writeMemory (.reg 3) (.reg 6)) busy = .next t ∧ t.mem.readByte 65533 ≠ busy.mem.readByte 65533) ∧
      (32766 : Word) = numVal (resolve (.reg 3) (resolve (.reg 6) busy).2).1 ∧ (32766 : Word).toNat < busy.cfg.memWords) ∧
    ((∃ t, exec (.writeMemory (.lit 32767) (.reg 6)) busy = .next t) ∧
      (32767 : Word) = numVal (resolve (.lit 32767) (resolve (.reg 6) busy).2).1 ∧ busy.cfg.memWords ≤ (32767 : Word).toNat) ∧
    ((∃ t, exec (.readMemory (.reg 0) (.lit 32766)) busy = .next t) ∧
      ∀ a b, Instr.readMemory (.reg 0) (.lit 32766) ≠ .writeMemory a b) :=
  ⟨⟨⟨_, rfl, by decide⟩, rfl, by decide⟩, ⟨⟨_, rfl⟩, rfl, by decide⟩, ⟨_, rfl⟩, nofun⟩

theorem witness_StackChangesAtTopOnly :
    (∃ t, exec (.call (.lit 100)) busy = .next t ∧ t.stack = [20, 7]) ∧ ∃ t, exec .ret busy = .next t ∧ t.stack = [] :=
  ⟨⟨_, rfl, rfl⟩, _, rfl, rfl⟩

theorem witness_OnlyControlFlowWritesPc :
    (∃ t, exec (.jumpTo (.reg 5)) busy = .next t ∧ t.pc ≠ busy.pc) ∧ ∃ t, exec .ret busy = .next t ∧ t.pc ≠ busy.pc :=
  ⟨⟨_, rfl, by decide⟩, _, rfl, by decide⟩

/-- `busy` about to run Output 65, and about to run Input r0. -/
theorem witness_ConsoleInProgramOrder :
    (∃ t, step (busy.withWords [19, 65]) = .next t) ∧ (∃ t, step (busy.withWords [20, 32768]) = .next t) ∧
    (∃ t, exec (.output (.lit 65)) busy = .next t ∧ t.output ≠ busy.output) ∧
    ∃ t, exec (.input (.reg 0)) busy = .next t ∧ t.input ≠ busy.input :=
  ⟨⟨_, rfl⟩, ⟨_, rfl⟩, ⟨_, rfl, by decide⟩, _, rfl, by decide⟩

/-- The three ways to halt, at the ceiling's own value, and a halted state. -/
theorem witness_HaltFlagRule :
    (busy.halt = false ∧ ∃ t, exec .halt busy = .next t ∧ t.halt = true) ∧
    (∃ t, exec .ret { busy with stack := [] } = .next t ∧ t.halt = true) ∧
    (let s := { busy with pc := 32767 }
     s.waiting = none ∧ s.halt = false ∧ s.err = .none ∧ s.cfg.pcCeiling ≤ s.pc.toNat ∧
       ∃ t, step s = .next t ∧ t.halt = true) ∧
    (let s := { busy with halt := true }
     s.waiting = none ∧ s.halt = true ∧ ∃ t, step s = .next t) :=
  ⟨⟨rfl, _, rfl, rfl⟩, ⟨_, rfl, rfl⟩, ⟨rfl, rfl, rfl, by decide, _, rfl, rfl⟩, rfl, rfl, _, rfl⟩

theorem witness_NoInstructionReadsHalt : ∃ t, exec .ret { busy with stack := [] } = .next t := ⟨_, rfl⟩

/-- A second condition in one Execute, and a step in an errored state. -/
theorem witness_FirstErrorStays :
    let s := { busy with err := .decodeError }
    (∃ t, exec (.modulous (.reg 0) (.lit 5) (.lit 0)) s = .next t) ∧ (∃ t, step s = .next t) ∧ s.err ≠ .none :=
  ⟨⟨_, rfl⟩, ⟨_, rfl⟩, by decide⟩

theorem witness_InvalidOperandIsDecodeError :
    (Instr.modulous (.reg 0) (.invalid 32776) (.lit 0)).legal = false ∧ (Instr.push (.invalid 65535)).legal = false ∧
    busy.err = .none := by decide

/-- One instruction and state for each condition. -/
theorem witness_ErrorsHaveTheirCauses :
    busy.err = .none ∧ busyFull.err = .none ∧
    ((Instr.unrecognizedOpcode 22).legal = true ∧ ∃ t, exec (.unrecognizedOpcode 22) busy = .next t ∧ t.err = .invalidOpcode) ∧
    ((Instr.modulous (.reg 1) (.lit 5) (.reg 0)).legal = true ∧
      ∃ t, exec (.modulous (.reg 1) (.lit 5) (.reg 0)) busy = .next t ∧ t.err = .divideByZero) ∧
    ((Instr.readMemory (.reg 0) (.reg 1)).legal = true ∧
      ∃ t, exec (.readMemory (.reg 0) (.reg 1)) busy = .next t ∧ t.err = .addressOutOfRange) ∧
    ((Instr.writeMemory (.lit 32767) (.reg 6)).legal = true ∧
      ∃ t, exec (.writeMemory (.lit 32767) (.reg 6)) busy = .next t ∧ t.err = .addressOutOfRange) ∧
    ((Instr.call (.reg 2)).legal = true ∧ ∃ t, exec (.call (.reg 2)) busyFull = .next t ∧ t.err = .stackOverflow) :=
  ⟨rfl, rfl, ⟨rfl, _, rfl, rfl⟩, ⟨rfl, _, rfl, rfl⟩, ⟨rfl, _, rfl, rfl⟩, ⟨rfl, _, rfl, rfl⟩, rfl, _, rfl, rfl⟩

theorem witness_ErrorsArePrecise :
    (Instr.call (.reg 2)).legal = true ∧ busyFull.err = .none ∧
    ∃ t, exec (.call (.reg 2)) busyFull = .next t ∧ t.err ≠ .none := ⟨rfl, rfl, _, rfl, by decide⟩

theorem witness_StatusCodes : Err.code .stackOverflow = Err.code .stackOverflow := rfl

/-- Halted, and errored. -/
theorem witness_TerminalStateStays :
    (busy.waiting = none ∧ ({ busy with halt := true }).halt = true) ∧
    ({ busy with err := .divideByZero }).waiting = none ∧ ({ busy with err := .divideByZero }).err ≠ .none := by decide

theorem witness_CeilingHalts :
    let s := { busy with pc := 32767 }
    s.waiting = none ∧ s.halt = false ∧ s.err = .none ∧ s.cfg.pcCeiling ≤ s.pc.toNat := by decide

/-- Push at the last word of memory, and Add whose last operand word only is missing. -/
theorem witness_MissingOperandIsFetchOutOfRange :
    (let s := { busy with pc := 32766 }.withWords [2]
     s.cfg.wf ∧ s.waiting = none ∧ s.halt = false ∧ s.err = .none ∧ s.pc.toNat < s.cfg.pcCeiling ∧ 0 < fetchCount s ∧
       s.cfg.memWords ≤ s.pc.toNat + fetchCount s) ∧
    (let s := { busy with pc := 32764 }.withWords [9, 32768, 1]
     s.cfg.wf ∧ s.pc.toNat < s.cfg.pcCeiling ∧ s.cfg.memWords ≤ s.pc.toNat + fetchCount s) := by decide

/-- An Add whose last operand word is the last word of memory. -/
theorem witness_StepRunsDecodedInstruction :
    let i := Instr.add (.reg 0) (.lit 1) (.reg 6)
    let s := { busy with pc := 32763 }.withWords [9, 32768, 1, 32774]
    s.waiting = none ∧ s.halt = false ∧ s.err = .none ∧ s.cfg.opcodes.wf ∧ i.wf s.cfg.opcodes = true ∧
    s.pc.toNat < s.cfg.pcCeiling ∧ s.pc.toNat + i.operands.length < s.cfg.memWords ∧
    ∀ k, k < (encode s.cfg.opcodes i).length →
      s.mem.readByte (2 * s.pc.toNat + k) = (encode s.cfg.opcodes i).getD k 0 := by decide

theorem witness_PcAdvanceNeverWraps :
    let s := { busy with pc := 32766 }
    s.cfg.wf ∧ s.pc.toNat < s.cfg.pcCeiling := by decide

theorem witness_EveryStepAnswersNext : busy.cfg.wf := by decide

theorem witness_LoadedWordRuns : decodeTableWord 48 0x000580000001 = some (.set (.reg 0) (.lit 5)) := by decide

/-- An errored state in the middle of a run keeps the invariant, and is reset. -/
theorem witness_ResetFromAnyState : ({ busyFull with mem := topByte, err := .divideByZero }).Inv := by decide

/-- An image of exactly MEM_BYTES and one of a byte more, for a memory of two words. -/
theorem witness_LaunchPlacesImage :
    let s := { busy with cfg := { busy.cfg with memWords := 2, pcCeiling := 2 } }
    ([19, 0, 65, 0] : List Byte).length ≤ s.cfg.memBytes ∧ s.cfg.memBytes < ([19, 0, 65, 0, 1] : List Byte).length ∧ s.cfg.wf := by
  decide

/-- A store, the Halt of the ceiling, and a waiting Input whose word has come. -/
theorem witness_StepKeepsInvariant :
    ((busy.withWords [16, 32766, 32774]).Inv ∧ ∃ t, step (busy.withWords [16, 32766, 32774]) = .next t) ∧
    (({ busy with pc := 32767 }).Inv ∧ ∃ t, step { busy with pc := 32767 } = .next t) ∧
    (({ busy with waiting := some (.reg 7 9) }).Inv ∧ ∃ t, step { busy with waiting := some (.reg 7 9) } = .next t) :=
  ⟨⟨by decide, _, rfl⟩, ⟨by decide, _, rfl⟩, by decide, _, rfl⟩

/-- A state in the normal range about to read M[100] = 32767 into r0. -/
def rangeState : State :=
  { State.reset with regs := #v[0, 32767, 0, 0, 0, 0, 0, 0], stack := [32767], input := [32767],
                     mem := Memory.ofBytes 0 (wordBytes [15, 32768, 100]) ++ Memory.ofBytes 200 [0xFF, 0x7F] }

theorem rangeState_fetch : ∃ u, fetch rangeState = .run (.readMemory (.reg 0) (.lit 100)) u := ⟨_, rfl⟩

theorem witness_StepKeepsRange :
    rangeState.cfg.wf ∧ rangeState.cfg.memWords ≤ 32767 ∧ rangeState.RangeInv ∧ (∀ v ∈ rangeState.input, inRange v) ∧
    (rangeState.waiting = none ∧ rangeState.terminal = false) ∧
    (∀ i u, fetch rangeState = .run i u → i.legal = true ∧
      ∀ a b w, i = .readMemory a b → Carries rangeState b w → w.toNat < rangeState.cfg.memWords →
        inRange (rangeState.mem.readWord w.toNat)) ∧
    (after (step rangeState)).map (fun t => t.regs[0]) = some 32767 := by
  have h1 : ∀ v ∈ [(32767 : Word)], inRange v := List.forall_mem_singleton.2 (by decide)
  refine ⟨by decide, by decide, ⟨by decide, h1⟩, h1, by decide, fun i u h => ?_, by decide⟩
  obtain ⟨v, hv⟩ := rangeState_fetch
  cases hv.symm.trans h
  refine ⟨rfl, fun a b w hi hw _ => ?_⟩
  cases hi
  rw [show w = 100 from BitVec.eq_of_toNat_eq hw]
  decide

/-- An Input whose word has come, with an invalid operand word in the instruction after it, which the step does not fetch. -/
theorem witness_StepKeepsRange_waiting :
    let s := { rangeState with waiting := some (.reg 2 0), mem := Memory.ofBytes 0 (wordBytes [1, 32768, 32776]) }
    s.cfg.wf ∧ s.cfg.memWords ≤ 32767 ∧ s.RangeInv ∧ (∀ v ∈ s.input, inRange v) ∧ s.waiting ≠ none ∧
    (after (step s)).map (fun t => t.regs[2]) = some 32767 := by
  have h1 : ∀ v ∈ [(32767 : Word)], inRange v := List.forall_mem_singleton.2 (by decide)
  exact ⟨by decide, by decide, ⟨by decide, h1⟩, h1, nofun, by decide⟩

theorem witness_ParametersNeverChange : ∃ t, step (busy.withWords [16, 32766, 32774]) = .next t := ⟨_, rfl⟩

/-- The same machine traced and not traced. -/
theorem witness_DebugTraceIsReadOnly :
    SameButTrace busy { busy with debugOn := false } ∧ (∃ s', step busy = .next s') ∧
    (let s := { busy with cfg := { busy.cfg with memWords := 1 } }
     SameButTrace s { s with debugOn := false } ∧ step s = .fault .opcodeOutsideMemory) :=
  ⟨rfl, ⟨_, rfl⟩, rfl, rfl⟩

/-- `busy` about to run Add r0 r6 1, traced and not traced. -/
theorem witness_DebugRecordContents :
    let s := busy.withWords [9, 32768, 32774, 1]
    ((∃ u, fetch s = .run (.add (.reg 0) (.reg 6) (.lit 1)) u) ∧ s.debugOn = true ∧
      (Instr.add (.reg 0) (.reg 6) (.lit 1)).legal = true) ∧
    ((∃ u, fetch { s with debugOn := false } = .run (.add (.reg 0) (.reg 6) (.lit 1)) u)) ∧
    ∃ t, exec (.add (.reg 0) (.reg 6) (.lit 1)) s = .next t :=
  ⟨⟨⟨_, rfl⟩, rfl, rfl⟩, ⟨_, rfl⟩, _, rfl⟩

end Sys2Proof.Machine
end

/-! # Scope: the parameters of the hardware (spec/00_scope.md R2, R3) -/

namespace Sys2Proof.Machine

/-! ## Every step answers a next state -/

/-- Sizes that meet R3 leave no pc below PC_CEILING outside the memory, so Fetch always finds an opcode word (log 23). -/
theorem fetch_ne_noOpcode {s : State} (hle : s.cfg.pcCeiling ≤ s.cfg.memWords) : fetch s ≠ .noOpcode := by
  unfold fetch
  split
  · simp
  · next hceil =>
    have hin : ¬ s.cfg.memWords ≤ s.pc.toNat := fun h => hceil (hle.trans h)
    rw [if_neg hin]
    split <;> simp

/-- The one way a step answers no next state is Fetch finding no opcode word: Execute always answers one. -/
theorem step_next_of_fetch_ne_noOpcode {s : State} (h : fetch s ≠ .noOpcode) : ∃ t, step s = .next t := by
  unfold step
  split
  · exact ⟨_, rfl⟩
  · split
    · exact ⟨_, rfl⟩
    · split
      · next i u _ =>
        obtain ⟨t, ht, -⟩ := exec_effect i u
        exact ⟨t, ht⟩
      · exact ⟨_, rfl⟩
      · next hf => exact absurd hf h

/-- Settles O49: with PC_CEILING inside the memory Fetch finds an opcode word, and Execute is total. -/
theorem everyStepAnswersNext : Obligations.EveryStepAnswersNext := by
  intro s ⟨_, _, hceil, _⟩
  exact step_next_of_fetch_ne_noOpcode (fetch_ne_noOpcode hceil)

/-! ## No step changes a parameter -/

@[simp] theorem writeDest_cfg (n : Number) (v : Word) (s : State) : (writeDest n v s).cfg = s.cfg := by
  cases n <;> rfl

@[simp] theorem writeDest_debugOn (n : Number) (v : Word) (s : State) : (writeDest n v s).debugOn = s.debugOn := by
  cases n <;> rfl

/-- The parameters and the selection of the debug trace are the same in both states. -/
def SameParameters (s t : State) : Prop := t.cfg = s.cfg ∧ t.debugOn = s.debugOn

theorem SameParameters.trans {s t u : State} (h : SameParameters s t) (k : SameParameters t u) : SameParameters s u :=
  ⟨k.1.trans h.1, k.2.trans h.2⟩

theorem OperandsTaken.sameParameters {s t : State} (h : OperandsTaken s t) : SameParameters s t := ⟨h.cfg, h.debugOn⟩

/-- The fields an effect writes are never `cfg` or `debugOn`. -/
theorem Effect.sameParameters {i : Instr} {u t : State} (h : Effect i u t) : SameParameters u t := by
  cases h <;> simp [SameParameters]

theorem exec_sameParameters {i : Instr} {s t : State} (h : exec i s = .next t) : SameParameters s t :=
  (taken_like i s).sameParameters.trans (effect_of_exec h).sameParameters

theorem takeInput_sameParameters (a : Number) (s : State) : SameParameters s (takeInput a s) := by
  obtain ⟨-, h⟩ | ⟨v, vs, -, h⟩ := takeInput_cases a s <;> simp [SameParameters, h]

/-- Fetch hands Execute a state whose pc and trace alone it has changed. -/
theorem fetch_run_sameParameters {i : Instr} {s u : State} (h : fetch s = .run i u) : SameParameters s u := by
  obtain ⟨-, -, rfl⟩ | ⟨-, -, -, -, rfl⟩ := fetch_run h <;> simp [SameParameters]

theorem fetch_ended_sameParameters {s t : State} (h : fetch s = .ended t) : SameParameters s t := by
  obtain ⟨-, -, -, rfl⟩ := fetch_ended h
  simp [SameParameters]

/-- Settles O57: each of the four things a step can do keeps `cfg` and `debugOn`. -/
theorem parametersNeverChange : Obligations.ParametersNeverChange := by
  intro s t h
  obtain ⟨a, -, rfl⟩ | ⟨-, -, rfl⟩ | ⟨-, -, i, u, hf, he⟩ | ⟨-, -, hf⟩ := step_next h
  case inl => exact takeInput_sameParameters a s
  case inr.inl => exact ⟨rfl, rfl⟩
  case inr.inr.inl => exact (fetch_run_sameParameters hf).trans (exec_sameParameters he)
  case inr.inr.inr => exact fetch_ended_sameParameters hf

end Sys2Proof.Machine

/-! # State: registers, stack, pc, halt, the status codes and the reset values (spec/10_state.md) -/

namespace Sys2Proof.Machine

/-! ## Words in the normal range (10_state.md R12)

Each ALU function and each legal operand gives a word in the range when the words it is given are. -/

theorem inRange_of_mod {n : Nat} : inRange (BitVec.ofNat 16 (n % modulus)) := by
  simp only [inRange, litMax, modulus, BitVec.toNat_ofNat]
  omega

theorem inRange_add15 (p q : Word) : inRange (add15 p q) := inRange_of_mod

theorem inRange_mul15 (p q : Word) : inRange (mul15 p q) := inRange_of_mod

theorem inRange_modWord {p : Word} (hp : inRange p) (q : Word) : inRange (modWord p q) := by
  have hle : p.toNat % q.toNat ≤ p.toNat := Nat.mod_le _ _
  simp only [inRange, modWord, BitVec.toNat_ofNat] at hp ⊢
  omega

theorem inRange_andWord {p : Word} (hp : inRange p) (q : Word) : inRange (andWord p q) := by
  rw [inRange, andWord, BitVec.toNat_and]
  exact Nat.and_le_left.trans hp

/-- The range is the 15-bit words. -/
theorem inRange_iff_lt {p : Word} : inRange p ↔ p.toNat < 2 ^ 15 := Nat.lt_succ_iff.symm

theorem inRange_orWord {p q : Word} (hp : inRange p) (hq : inRange q) : inRange (orWord p q) := by
  rw [inRange_iff_lt] at *
  exact BitVec.toNat_or p q ▸ Nat.or_lt_two_pow hp hq

theorem inRange_not15 {p : Word} (hp : inRange p) : inRange (not15 p) := by
  rw [inRange_iff_lt] at *
  exact BitVec.toNat_xor _ p ▸ Nat.xor_lt_two_pow (by decide) hp

theorem inRange_boolWord (b : Bool) : inRange (boolWord b) := by
  cases b <;> decide

theorem inRange_literal (l : BitVec 15) : inRange (l.setWidth 16) := by
  rw [inRange_iff_lt, BitVec.toNat_setWidth]
  exact (Nat.mod_le _ _).trans_lt l.isLt

theorem State.RangeInv.inRange_legalNumber {s : State} (h : s.RangeInv) {o : Operand} (ho : o.legal = true) :
    inRange (numVal (legalNumber s o)) := by
  cases o with
  | lit l => exact inRange_literal l
  | reg r => exact h.1 r
  | invalid w => cases ho

/-! ## Updates that keep registers and stack in range -/

theorem State.RangeInv.of_eq {s t : State} (h : s.RangeInv) (hregs : t.regs = s.regs) (hstack : t.stack = s.stack) :
    t.RangeInv := by
  simpa only [State.RangeInv, State.getReg, hregs, hstack] using h

theorem State.RangeInv.setReg {s : State} (h : s.RangeInv) (r : RegIndex) {v : Word} (hv : inRange v) :
    (s.setReg r v).RangeInv := by
  refine ⟨fun j => ?_, h.2⟩
  rw [State.getReg_setReg]
  split
  · exact hv
  · exact h.1 j

theorem State.RangeInv.writeDest {s : State} (h : s.RangeInv) (n : Number) {v : Word} (hv : inRange v) :
    (writeDest n v s).RangeInv := by
  cases n with
  | lit => exact h
  | reg r => exact h.setReg r hv

theorem State.RangeInv.push {s : State} (h : s.RangeInv) {v : Word} (hv : inRange v) : (s.push v).RangeInv :=
  ⟨h.1, List.forall_mem_cons.2 ⟨hv, h.2⟩⟩

/-- What pop() yields is in range, and so is what it leaves. -/
theorem State.RangeInv.popped {s : State} (h : s.RangeInv) {v : Word} {st : List Word} (hs : s.stack = v :: st) :
    inRange v ∧ (s.setStack st).RangeInv := by
  obtain ⟨hv, hst⟩ := List.forall_mem_cons.1 (hs ▸ h.2)
  exact ⟨hv, h.1, hst⟩

theorem State.RangeInv.raise {s : State} (h : s.RangeInv) (e : Err) : (s.raise e).RangeInv :=
  h.of_eq (s.raise_regs e) (s.raise_stack e)

/-- An Input, waiting or not, stores a word of the input sequence only. -/
theorem State.RangeInv.takeInput {s : State} (h : s.RangeInv) (hin : ∀ v ∈ s.input, inRange v) (n : Number) :
    (takeInput n s).RangeInv := by
  obtain ⟨-, ht⟩ | ⟨v, vs, hi, ht⟩ := takeInput_cases n s <;> rw [ht]
  · exact h
  · exact State.RangeInv.writeDest (s := s.setInput vs none) h n (hin v (hi ▸ List.mem_cons_self))

theorem State.RangeInv.storeWord {s t : State} (h : s.RangeInv) {w v : Word} (ht : s.storeWord w v = some t) :
    t.RangeInv := by
  simp only [State.storeWord, Option.ite_none_right_eq_some, Option.some.injEq] at ht
  obtain ⟨-, rfl⟩ := ht
  exact h.of_eq rfl rfl

/-- The destination guard: nothing, or what is done to a register. -/
theorem State.RangeInv.ifReg {s : State} (h : s.RangeInv) (n : Number) {act : RegIndex → State}
    (hact : ∀ r, (act r).RangeInv) : (ifReg n s act).RangeInv := by
  cases n with
  | lit => exact h
  | reg r => exact hact r

/-! ## Execute and a step keep the range (10_state.md R12) -/

theorem eq_of_run1 {a : Operand} {s t : State} {rule : Number → State → State} (hl : ∀ o ∈ [a], o.legal = true)
    (ht : run1 a s rule = .next t) : t = rule (legalNumber s a) s := by
  rw [run1_legal (hl a (by simp))] at ht
  cases ht
  rfl

theorem eq_of_run2 {a b : Operand} {s t : State} {rule : Number → Number → State → State}
    (hl : ∀ o ∈ [a, b], o.legal = true) (ht : run2 a b s rule = .next t) :
    t = rule (legalNumber s a) (legalNumber s b) s := by
  rw [run2_legal (hl a (by simp)) (hl b (by simp))] at ht
  cases ht
  rfl

theorem eq_of_run3 {a b c : Operand} {s t : State} {rule : Number → Number → Number → State → State}
    (hl : ∀ o ∈ [a, b, c], o.legal = true) (ht : run3 a b c s rule = .next t) :
    t = rule (legalNumber s a) (legalNumber s b) (legalNumber s c) s := by
  rw [run3_legal (hl a (by simp)) (hl b (by simp)) (hl c (by simp))] at ht
  cases ht
  rfl

/-- Every instruction that writes a function of two operands to its destination: the function keeps the range. -/
theorem State.RangeInv.run3_writeDest {s t : State} (h : s.RangeInv) {a b c : Operand} {f : Word → Word → Word}
    (hl : ∀ o ∈ [a, b, c], o.legal = true) (hf : ∀ p q, inRange p → inRange q → inRange (f p q))
    (ht : run3 a b c s (fun a b c s => Machine.writeDest a (f (numVal b) (numVal c)) s) = .next t) : t.RangeInv := by
  obtain rfl := eq_of_run3 hl ht
  exact h.writeDest _ (hf _ _ (h.inRange_legalNumber (hl b (by simp))) (h.inRange_legalNumber (hl c (by simp))))

/-- A legal operand carries the value of its Number. -/
theorem carries_legalNumber (s : State) {o : Operand} (h : o.legal = true) : Carries s o (numVal (legalNumber s o)) := by
  cases o with
  | lit l => exact BitVec.toNat_setWidth_of_le (by decide)
  | reg r => rfl
  | invalid w => cases h

/-- What ReadMemory must find for the range to be kept: the word its address names, if it exists, is in range. -/
def ReadsInRange (i : Instr) (s : State) : Prop :=
  ∀ a b w, i = .readMemory a b → Carries s b w → w.toNat < s.cfg.memWords → inRange (s.mem.readWord w.toNat)

theorem ReadsInRange.loadWord {a b : Operand} {s : State} {v : Word} (h : ReadsInRange (.readMemory a b) s)
    (hb : b.legal = true) (hv : s.loadWord (numVal (legalNumber s b)) = some v) : inRange v := by
  simp only [State.loadWord, Option.ite_none_right_eq_some, Option.some.injEq] at hv
  obtain ⟨hlt, rfl⟩ := hv
  exact h a b _ rfl (carries_legalNumber s hb) hlt

/-- Execute keeps the range with legal operands, a pc that can be pushed, input words in range, and a word in range where
ReadMemory reads one. -/
theorem exec_keepsRange {i : Instr} {s t : State} (h : s.RangeInv) (hlegal : i.legal = true)
    (hpc : ∀ a, i = .call a → inRange s.pc) (hin : ∀ v ∈ s.input, inRange v) (hread : ReadsInRange i s)
    (ht : exec i s = .next t) : t.RangeInv := by
  have hl : ∀ o ∈ i.operands, o.legal = true := List.all_eq_true.1 hlegal
  have hval : ∀ o ∈ i.operands, inRange (numVal (legalNumber s o)) := fun o ho => h.inRange_legalNumber (hl o ho)
  cases i with simp only [exec] at ht
  | add a b c => exact h.run3_writeDest hl (fun p q _ _ => inRange_add15 p q) ht
  | multiply a b c => exact h.run3_writeDest hl (fun p q _ _ => inRange_mul15 p q) ht
  | and a b c => exact h.run3_writeDest hl (fun _ q hp _ => inRange_andWord hp q) ht
  | or a b c => exact h.run3_writeDest hl (fun _ _ => inRange_orWord) ht
  | equalTo a b c => exact h.run3_writeDest hl (fun _ _ _ _ => inRange_boolWord _) ht
  | greaterThan a b c => exact h.run3_writeDest hl (fun _ _ _ _ => inRange_boolWord _) ht
  | modulous a b c =>
    obtain rfl := eq_of_run3 hl ht
    refine h.ifReg _ fun r => ?_
    split
    · exact h.raise _
    · exact h.setReg r (inRange_modWord (hval b (by simp [Instr.operands])) _)
  | set a b =>
    obtain rfl := eq_of_run2 hl ht
    exact h.writeDest _ (hval b (by simp [Instr.operands]))
  | not a b =>
    obtain rfl := eq_of_run2 hl ht
    exact h.writeDest _ (inRange_not15 (hval b (by simp [Instr.operands])))
  | readMemory a b =>
    obtain rfl := eq_of_run2 hl ht
    refine h.ifReg _ fun r => ?_
    split
    · exact h.raise _
    · next hv => exact h.setReg r (hread.loadWord (hl b (by simp [Instr.operands])) hv)
  | push a =>
    obtain rfl := eq_of_run1 hl ht
    split
    · exact h.raise _
    · exact h.push (hval a (by simp [Instr.operands]))
  | call a =>
    obtain rfl := eq_of_run1 hl ht
    split
    · exact h.raise _
    · exact (h.push (hpc a rfl)).of_eq rfl rfl
  | pop a =>
    obtain rfl := eq_of_run1 hl ht
    refine h.ifReg _ fun r => ?_
    split
    · exact h
    · next hs => exact (h.popped hs).2.setReg r (h.popped hs).1
  | ret =>
    unfold execReturn at ht
    split at ht <;> cases ht
    · exact h.of_eq rfl rfl
    · next hs => exact (h.popped hs).2.of_eq rfl rfl
  | input a =>
    obtain rfl := eq_of_run1 hl ht
    exact h.takeInput hin _
  | jumpTo a =>
    obtain rfl := eq_of_run1 hl ht
    exact h.of_eq rfl rfl
  | jumpToIfNotZero a b =>
    obtain rfl := eq_of_run2 hl ht
    split <;> exact h.of_eq rfl rfl
  | jumpToIfZero a b =>
    obtain rfl := eq_of_run2 hl ht
    split <;> exact h.of_eq rfl rfl
  | writeMemory a b =>
    obtain rfl := eq_of_run2 hl ht
    split
    · exact h.raise _
    · next hu => exact h.storeWord hu
  | output a =>
    obtain rfl := eq_of_run1 hl ht
    exact h.of_eq rfl rfl
  | halt | noOperation => cases ht; exact h.of_eq rfl rfl
  | unrecognizedOpcode w => cases ht; exact h.raise _

/-! ## What Fetch hands over -/

theorem expose_eq (i : Instr) (s : State) : expose i s = { s with trace := (expose i s).trace } := by
  unfold expose
  split <;> rfl

/-- Fetch changes pc and the trace of the state it hands to Execute, nothing else. -/
theorem fetch_run_frame {i : Instr} {s u : State} (h : fetch s = .run i u) :
    ∃ pc tr, u = { s with pc := pc, trace := tr } := by
  obtain ⟨-, -, rfl⟩ | ⟨-, -, -, -, rfl⟩ := fetch_run h
  · exact ⟨_, _, expose_eq _ _⟩
  · exact ⟨_, _, expose_eq _ _⟩

/-- With at most 32767 words, pc advanced past an instruction inside the memory is in range: at most the memory's end. -/
theorem advancePc_inRange {s : State} {n : Nat} (hmem : s.cfg.memWords ≤ 32767) (hpc : s.pc.toNat < s.cfg.memWords)
    (hn : 0 < n → s.pc.toNat + n < s.cfg.memWords) : inRange (s.advancePc n).pc := by
  simp only [inRange, litMax, State.advancePc_pc, BitVec.toNat_add, BitVec.toNat_ofNat]
  omega

/-- The pc a Call would push is in range. Only a synthesized Halt runs on a pc outside the memory. -/
theorem fetch_run_pc_inRange {i : Instr} {s u : State} (hmem : s.cfg.memWords ≤ 32767) (h : fetch s = .run i u)
    (hi : i ≠ .halt) : inRange u.pc := by
  obtain ⟨-, hhalt, -⟩ | ⟨-, hpc, hn, -, rfl⟩ := fetch_run h
  · exact absurd hhalt hi
  · rw [expose_pc]
    exact advancePc_inRange hmem hpc hn

/-- Settles O56: each of the four things a step can do keeps the range; Execute by `exec_keepsRange`, Fetch by changing
neither registers nor stack. -/
theorem stepKeepsRange : Obligations.StepKeepsRange := by
  intro s t _ hmem hr hin hfetched ht
  obtain ⟨a, -, rfl⟩ | ⟨-, -, rfl⟩ | ⟨hw, hterm, i, u, hf, he⟩ | ⟨-, -, hf⟩ := step_next ht
  case inl => exact hr.takeInput hin a
  case inr.inl => exact hr
  case inr.inr.inl =>
    obtain ⟨hlegal, hread⟩ := hfetched hw hterm i u hf
    have hpc : ∀ a, i = .call a → inRange u.pc := fun a hi => fetch_run_pc_inRange hmem hf (by simp [hi])
    obtain ⟨pc, tr, rfl⟩ := fetch_run_frame hf
    have hread' : ReadsInRange i { s with pc := pc, trace := tr } := fun a b w hi hc =>
      hread a b w hi (by cases b <;> exact hc)
    exact exec_keepsRange (s := { s with pc := pc, trace := tr }) hr hlegal hpc hin hread' he
  case inr.inr.inr =>
    obtain ⟨-, -, -, rfl⟩ := fetch_ended hf
    exact State.RangeInv.raise (s := s.advancePc _) hr _

/-! ## What an instruction may write (10_state.md R13, R15, R16, R18)

Each is read off the effects of Execute, one field at a time; taking the operands writes none of these fields. -/

@[simp] theorem writeDest_stack (n : Number) (v : Word) (s : State) : (writeDest n v s).stack = s.stack := by
  cases n <;> rfl

@[simp] theorem writeDest_pc (n : Number) (v : Word) (s : State) : (writeDest n v s).pc = s.pc := by
  cases n <;> rfl

@[simp] theorem writeDest_halt (n : Number) (v : Word) (s : State) : (writeDest n v s).halt = s.halt := by
  cases n <;> rfl

/-- The registers change at the destination only; an invalid destination may be any register. -/
theorem Effect.regs {i : Instr} {u t : State} (h : Effect i u t) :
    t.regs = u.regs ∨
      ∃ d r v, i.dest = some d ∧ (d = .reg r ∨ d.legal = false) ∧ t.regs = u.regs.set r v := by
  cases h with
  | wroteReg hd hr => exact .inr ⟨_, _, _, hd, hr, rfl⟩
  | popped hr => exact .inr ⟨_, _, _, rfl, hr, rfl⟩
  | took _ hn =>
    obtain ⟨l, rfl⟩ | ⟨r, x, rfl, hr⟩ := hn
    · exact .inl rfl
    · exact .inr ⟨_, _, _, rfl, hr, rfl⟩
  | _ => exact .inl (by simp)

theorem Effect.stack {i : Instr} {u t : State} (h : Effect i u t) :
    t.stack = u.stack ∨
    (∃ v, t.stack = v :: u.stack ∧ ((∃ a, i = .push a) ∨ ∃ a, i = .call a)) ∨
    (∃ v, u.stack = v :: t.stack ∧ ((∃ a, i = .pop a) ∨ i = .ret)) := by
  cases h with
  | pushed => exact .inr (.inl ⟨_, rfl, .inl ⟨_, rfl⟩⟩)
  | called => exact .inr (.inl ⟨_, rfl, .inr ⟨_, rfl⟩⟩)
  | popped _ hs => exact .inr (.inr ⟨_, hs, .inl ⟨_, rfl⟩⟩)
  | returned hs => exact .inr (.inr ⟨_, hs, .inr rfl⟩)
  | _ => exact .inl (by simp)

theorem Effect.pc {i : Instr} {u t : State} (h : Effect i u t) :
    t.pc = u.pc ∨ (∃ a, i = .jumpTo a) ∨ (∃ a b, i = .jumpToIfNotZero a b) ∨ (∃ a b, i = .jumpToIfZero a b) ∨
      (∃ a, i = .call a) ∨ (i = .ret ∧ u.stack ≠ []) := by
  cases h with
  | jumped hi =>
    obtain hi | hi | hi := hi
    · exact .inr (.inl hi)
    · exact .inr (.inr (.inl hi))
    · exact .inr (.inr (.inr (.inl hi)))
  | called => exact .inr (.inr (.inr (.inr (.inl ⟨_, rfl⟩))))
  | returned hs => exact .inr (.inr (.inr (.inr (.inr ⟨rfl, by simp [hs]⟩))))
  | _ => exact .inl (by simp)

theorem Effect.halt {i : Instr} {u t : State} (h : Effect i u t) :
    t.halt = u.halt ∨ t.halt = true ∧ (i = .halt ∨ i = .ret ∧ u.stack = []) := by
  cases h with
  | halted hi => exact .inr ⟨rfl, hi⟩
  | _ => exact .inl (by simp)

/-- Settles O32: a destination that is a literal is neither a register nor invalid, and a register is not invalid; writing
a register's own value writes nothing. -/
theorem onlyDestinationRegisterChanges : Obligations.OnlyDestinationRegisterChanges := by
  intro i s t h
  obtain heq | ⟨d, r, v, hd, hr, heq⟩ := (effect_of_exec h).regs <;> rw [(taken_like i s).regs] at heq
  · have hself : ∀ r : RegIndex, s.regs = s.regs.set r s.regs[r] := fun r => by simp
    exact ⟨fun _ => heq, fun _ _ => heq, fun r _ => ⟨_, heq.trans (hself r)⟩, 0, _, heq.trans (hself 0)⟩
  · refine ⟨fun h0 => ?_, fun l hl => ?_, fun q hq => ?_, r, v, heq⟩
    · cases hd.symm.trans h0
    · cases hd.symm.trans hl
      obtain hr | hr := hr <;> cases hr
    · cases hd.symm.trans hq
      obtain hr | hr := hr <;> cases hr
      exact ⟨v, heq⟩

/-- Settles O34, from the effects on the stack. -/
theorem stackChangesAtTopOnly : Obligations.StackChangesAtTopOnly := by
  intro i s t h
  exact (taken_like i s).stack ▸ (effect_of_exec h).stack

/-- Settles O35, from the effects on pc. -/
theorem onlyControlFlowWritesPc : Obligations.OnlyControlFlowWritesPc := by
  intro i s t h hne
  have heff := (effect_of_exec h).pc
  rw [(taken_like i s).pc, (taken_like i s).stack] at heff
  exact heff.resolve_left hne

/-! ## The halt flag (10_state.md R18) -/

theorem exec_halt_cases {i : Instr} {s t : State} (h : exec i s = .next t) :
    t.halt = s.halt ∨ t.halt = true ∧ (i = .halt ∨ i = .ret ∧ s.stack = []) := by
  have heff := (effect_of_exec h).halt
  rwa [(taken_like i s).halt, (taken_like i s).stack] at heff

/-- An instruction that sets halt is Halt, or Return on an empty stack. -/
theorem exec_sets_halt {i : Instr} {s t : State} (h : exec i s = .next t) (hs : s.halt = false) (ht : t.halt = true) :
    i = .halt ∨ i = .ret ∧ s.stack = [] := by
  obtain heq | ⟨-, hi⟩ := exec_halt_cases h
  · simp [heq, hs] at ht
  · exact hi

@[simp] theorem takeInput_halt (a : Number) (s : State) : (takeInput a s).halt = s.halt := by
  obtain ⟨-, h⟩ | ⟨v, vs, -, h⟩ := takeInput_cases a s <;> simp [h]

/-- A step that sets halt found pc at or above the ceiling or ran one of the two instructions that set it. -/
theorem step_sets_halt {s t : State} (h : step s = .next t) (hs : s.halt = false) (ht : t.halt = true) :
    s.cfg.pcCeiling ≤ s.pc.toNat ∨ fetchInstr s = .halt ∨ (fetchInstr s = .ret ∧ s.stack = []) := by
  obtain ⟨a, -, rfl⟩ | ⟨-, -, rfl⟩ | ⟨-, -, i, u, hf, he⟩ | ⟨-, -, hf⟩ := step_next h
  case inl => simp [hs] at ht
  case inr.inl => simp [hs] at ht
  case inr.inr.inl =>
    obtain ⟨hceil, -, -⟩ | ⟨-, -, -, rfl, rfl⟩ := fetch_run hf
    · exact .inl hceil
    · exact .inr (by simpa using exec_sets_halt he (by simpa using hs) ht)
  case inr.inr.inr =>
    obtain ⟨-, -, -, rfl⟩ := fetch_ended hf
    simp [hs] at ht

theorem fetch_of_ceiling {s : State} (h : s.cfg.pcCeiling ≤ s.pc.toNat) : fetch s = .run .halt (expose .halt s) := if_pos h

theorem step_of_terminal {s : State} (hw : s.waiting = none) (h : s.terminal = true) : step s = .next s := by
  simp only [step, hw, h, if_true]

theorem step_of_fetch_run {i : Instr} {s u : State} (hw : s.waiting = none) (h : s.terminal = false)
    (hf : fetch s = .run i u) : step s = exec i u := by
  simp only [step, hw, h, hf, Bool.false_eq_true, if_false]

theorem terminal_of_halt {s : State} (h : s.halt = true) : s.terminal = true := by
  rw [State.terminal, h, Bool.true_or]

theorem step_keeps_halt {s t : State} (h : step s = .next t) (hs : s.halt = true) : t.halt = true := by
  obtain ⟨a, -, rfl⟩ | ⟨-, -, rfl⟩ | ⟨-, hterm, -⟩ | ⟨-, hterm, -⟩ := step_next h
  case inl => rwa [takeInput_halt]
  case inr.inl => exact hs
  all_goals simp [terminal_of_halt hs] at hterm

/-- Settles O37, a clause by a lemma. -/
theorem haltFlagRule : Obligations.HaltFlagRule := by
  refine ⟨fun i s t => exec_sets_halt, fun s t => step_sets_halt, fun s hw hh he hceil => ?_, fun s t => step_keeps_halt,
    fun s hw hh => step_of_terminal hw (terminal_of_halt hh)⟩
  exact ⟨_, step_of_fetch_run hw (terminal_eq_false.2 ⟨hh, he⟩) (fetch_of_ceiling hceil), rfl⟩

/-! ## Changes of the state that Execute does not see -/

/-- The change leaves alone what Execute reads and commutes with all that it writes by. -/
structure Unseen (f : State → State) : Prop where
  cfg : ∀ s, (f s).cfg = s.cfg
  regs : ∀ s, (f s).regs = s.regs
  pc : ∀ s, (f s).pc = s.pc
  stack : ∀ s, (f s).stack = s.stack
  mem : ∀ s, (f s).mem = s.mem
  input : ∀ s, (f s).input = s.input
  freeDraws : ∀ s, (f s).freeDraws = s.freeDraws
  setReg : ∀ s i v, (f s).setReg i v = f (s.setReg i v)
  setPc : ∀ s v, (f s).setPc v = f (s.setPc v)
  push : ∀ s v, (f s).push v = f (s.push v)
  setStack : ∀ s st, (f s).setStack st = f (s.setStack st)
  setMem : ∀ s m, (f s).setMem m = f (s.setMem m)
  emit : ∀ s v, (f s).emit v = f (s.emit v)
  setInput : ∀ s vs wt, (f s).setInput vs wt = f (s.setInput vs wt)
  countDraw : ∀ s, (f s).countDraw = f s.countDraw
  setHalt : ∀ s, (f s).setHalt = f s.setHalt
  raise : ∀ s e, (f s).raise e = f (s.raise e)

theorem ifReg_commutes {f : State → State} (n : Number) (s : State) {act act' : RegIndex → State}
    (h : ∀ r, act' r = f (act r)) : ifReg n (f s) act' = f (ifReg n s act) := by
  cases n with
  | lit => rfl
  | reg r => exact h r

namespace Unseen

variable {f : State → State} (hf : Unseen f)
include hf

theorem getReg (s : State) (r : RegIndex) : (f s).getReg r = s.getReg r := by
  simp only [State.getReg, hf.regs]

theorem stackFull (s : State) : (f s).stackFull = s.stackFull := by
  simp only [State.stackFull, hf.cfg, hf.stack]

theorem loadWord (s : State) (w : Word) : (f s).loadWord w = s.loadWord w := by
  simp only [State.loadWord, hf.cfg, hf.mem]

theorem storeWord (s : State) (w v : Word) : (f s).storeWord w v = (s.storeWord w v).map f := by
  simp only [State.storeWord, hf.cfg, hf.mem, hf.setMem]
  split <;> rfl

theorem writeDest (n : Number) (v : Word) (s : State) : writeDest n v (f s) = f (writeDest n v s) :=
  ifReg_commutes n s fun r => hf.setReg s r v

theorem takeInput (n : Number) (s : State) : takeInput n (f s) = f (takeInput n s) := by
  unfold Machine.takeInput
  rw [hf.input]
  split
  · exact hf.setInput s _ _
  · rw [hf.setInput, hf.writeDest]

theorem resolve (o : Operand) (s : State) : resolve o (f s) = ((resolve o s).1, f (resolve o s).2) := by
  cases o with
  | lit => rfl
  | reg r => simp only [resolve_reg, hf.getReg]
  | invalid w => simp only [resolve_invalid, hf.freeDraws, hf.raise, hf.countDraw]

theorem run1 {a : Operand} {s t : State} {rule : Number → State → State} (hr : ∀ n s, rule n (f s) = f (rule n s))
    (h : run1 a s rule = .next t) : run1 a (f s) rule = .next (f t) := by
  cases h
  simp only [Machine.run1, hf.resolve, hr]

theorem run2 {a b : Operand} {s t : State} {rule : Number → Number → State → State}
    (hr : ∀ m n s, rule m n (f s) = f (rule m n s)) (h : run2 a b s rule = .next t) :
    run2 a b (f s) rule = .next (f t) := by
  cases h
  simp only [Machine.run2, hf.resolve, hr]

theorem run3 {a b c : Operand} {s t : State} {rule : Number → Number → Number → State → State}
    (hr : ∀ l m n s, rule l m n (f s) = f (rule l m n s)) (h : run3 a b c s rule = .next t) :
    run3 a b c (f s) rule = .next (f t) := by
  cases h
  simp only [Machine.run3, hf.resolve, hr]

/-- Execute commutes with a change it does not see. -/
theorem exec {i : Instr} {s t : State} (h : exec i s = .next t) : exec i (f s) = .next (f t) := by
  cases i with simp only [Machine.exec] at h ⊢
  | add | multiply | and | or | equalTo | greaterThan => exact hf.run3 (fun n _ _ s => hf.writeDest n _ s) h
  | set | not => exact hf.run2 (fun n _ s => hf.writeDest n _ s) h
  | modulous a b c =>
    refine hf.run3 (fun l m n s => ifReg_commutes l s fun r => ?_) h
    split
    · exact hf.raise s _
    · exact hf.setReg s r _
  | readMemory a b =>
    refine hf.run2 (fun m n s => ifReg_commutes m s fun r => ?_) h
    rw [hf.loadWord]
    split
    · exact hf.raise s _
    · exact hf.setReg s r _
  | writeMemory a b =>
    refine hf.run2 (fun m n s => ?_) h
    rw [hf.storeWord]
    cases s.storeWord (numVal m) (numVal n) with
    | none => exact hf.raise s _
    | some t => rfl
  | push a =>
    refine hf.run1 (fun n s => ?_) h
    rw [hf.stackFull]
    split
    · exact hf.raise s _
    · exact hf.push s _
  | call a =>
    refine hf.run1 (fun n s => ?_) h
    rw [hf.stackFull, hf.pc, hf.push, hf.setPc]
    split
    · exact hf.raise s _
    · rfl
  | pop a =>
    refine hf.run1 (fun n s => ifReg_commutes n s fun r => ?_) h
    rw [hf.stack]
    split
    · rfl
    · rw [hf.setStack, hf.setReg]
  | ret =>
    unfold execReturn at h ⊢
    rw [hf.stack]
    split at h <;> cases h
    · exact congrArg _ (hf.setHalt s)
    · exact congrArg _ (by rw [hf.setStack, hf.setPc])
  | jumpTo a => exact hf.run1 (fun n s => hf.setPc s _) h
  | jumpToIfNotZero a b =>
    refine hf.run2 (fun m n s => ?_) h
    split
    · exact hf.setPc s _
    · rfl
  | jumpToIfZero a b =>
    refine hf.run2 (fun m n s => ?_) h
    split
    · exact hf.setPc s _
    · rfl
  | output a => exact hf.run1 (fun n s => hf.emit s _) h
  | input a => exact hf.run1 hf.takeInput h
  | halt => cases h; exact congrArg _ (hf.setHalt s)
  | noOperation => cases h; rfl
  | unrecognizedOpcode w => cases h; exact congrArg _ (hf.raise s _)

end Unseen

/-- Execute does not see the halt flag set. -/
theorem unseen_setHalt : Unseen State.setHalt := by
  constructor
  case raise =>
    intro s e
    unfold State.raise
    rw [State.setHalt_err]
    split <;> rfl
  all_goals intros; rfl

/-- Settles O38: `setHalt` is a change that Execute does not see. -/
theorem noInstructionReadsHalt : Obligations.NoInstructionReadsHalt :=
  fun _ _ _ h => unseen_setHalt.exec h

/-! ## The status interface (10_state.md R19, 40_cycle_fetch_decode.md R77) -/

/-- The error state a code stands for. -/
def Err.ofCode (c : BitVec 3) : Err :=
  [Err.none, .decodeError, .invalidOpcode, .divideByZero, .addressOutOfRange, .fetchOutOfRange,
    .stackOverflow].getD c.toNat .none

theorem Err.ofCode_code : Function.LeftInverse Err.ofCode Err.code := by
  intro e
  cases e <;> rfl

theorem Err.code_ne_seven (e : Err) : e.code ≠ 7 := by
  cases e <;> decide

/-- Settles O43: a code determines its error by `Err.ofCode`. -/
theorem statusCodes : Obligations.StatusCodes :=
  ⟨fun _ => rfl, rfl, fun _ _ h => Err.ofCode_code.injective h, Err.code_ne_seven⟩

/-! ## Reset (10_state.md R23) -/

@[simp] theorem State.reset_getReg (r : RegIndex) : State.reset.getReg r = 0 := Vector.getElem_replicate r.isLt

/-- Settles O51: each field has its reset value by definition; the registers and memory for every index and address. -/
theorem resetState : Obligations.ResetState :=
  ⟨State.reset_getReg, rfl, rfl, rfl, rfl, rfl, fun _ => rfl, rfl, rfl, rfl, rfl, rfl, rfl, rfl, rfl⟩

theorem State.reset_memInv : State.reset.memInv := ⟨Memory.wf_nil, by simp [State.reset]⟩

theorem State.reset_stackInv : State.reset.stackInv := nofun

theorem State.reset_statusInv : State.reset.statusInv := ⟨nofun, fun h => absurd rfl h⟩

theorem State.reset_rangeInv : State.reset.RangeInv := ⟨fun r => by simp [inRange], nofun⟩

/-- Settles O54: the document's parameters are usable, and each invariant holds of nothing placed, pushed, raised. -/
theorem resetMeetsInvariants : Obligations.ResetMeetsInvariants :=
  ⟨⟨by decide, State.reset_memInv, State.reset_stackInv, State.reset_statusInv⟩, State.reset_rangeInv⟩

end Sys2Proof.Machine

/-! # Memory: the invariant of the machine, byte order, the canonical form, who writes it, its image (spec/20_memory.md) -/

namespace Sys2Proof.Machine

/-! ## Every step keeps the invariant (20_memory.md R30, 10_state.md R26, 60_exceptions.md R146) -/

@[simp] theorem writeDest_mem (n : Number) (v : Word) (s : State) : (writeDest n v s).mem = s.mem := by
  cases n <;> rfl

@[simp] theorem writeDest_err (n : Number) (v : Word) (s : State) : (writeDest n v s).err = s.err := by
  cases n <;> rfl

@[simp] theorem writeDest_waiting (n : Number) (v : Word) (s : State) : (writeDest n v s).waiting = s.waiting := by
  cases n <;> rfl

@[simp] theorem takeInput_cfg (a : Number) (s : State) : (takeInput a s).cfg = s.cfg :=
  (takeInput_sameParameters a s).1

@[simp] theorem takeInput_mem (a : Number) (s : State) : (takeInput a s).mem = s.mem := by
  obtain ⟨-, h⟩ | ⟨v, vs, -, h⟩ := takeInput_cases a s <;> simp [h]

@[simp] theorem takeInput_stack (a : Number) (s : State) : (takeInput a s).stack = s.stack := by
  obtain ⟨-, h⟩ | ⟨v, vs, -, h⟩ := takeInput_cases a s <;> simp [h]

@[simp] theorem takeInput_err (a : Number) (s : State) : (takeInput a s).err = s.err := by
  obtain ⟨-, h⟩ | ⟨v, vs, -, h⟩ := takeInput_cases a s <;> simp [h]

/-- Memory changes by WriteMemory alone, in one word that exists. -/
theorem Effect.mem {i : Instr} {u t : State} (h : Effect i u t) :
    t.mem = u.mem ∨
      ∃ (a b : Operand) (w v : Word), i = .writeMemory a b ∧ w.toNat < u.cfg.memWords ∧ t.mem = u.mem.writeWord w.toNat v := by
  cases h with
  | stored hw => exact .inr ⟨_, _, _, _, rfl, hw, rfl⟩
  | _ => exact .inl (by simp)

theorem exec_mem_cases {i : Instr} {s t : State} (h : exec i s = .next t) :
    t.mem = s.mem ∨
      ∃ (a b : Operand) (w v : Word), i = .writeMemory a b ∧ w.toNat < s.cfg.memWords ∧ t.mem = s.mem.writeWord w.toNat v := by
  have heff := (effect_of_exec h).mem
  rwa [(taken_like i s).mem, (taken_like i s).cfg] at heff

/-- The invariant of memory is about the memory and its size alone. -/
theorem State.memInv.of_eq {s t : State} (h : s.memInv) (hcfg : t.cfg = s.cfg) (hmem : t.mem = s.mem) : t.memInv := by
  rwa [State.memInv, hcfg, hmem]

/-- Execute keeps memory in canonical form and inside MEM_BYTES: what it writes is a word that exists. -/
theorem exec_memInv {i : Instr} {s t : State} (h : exec i s = .next t) (hs : s.memInv) : t.memInv := by
  have hcfg := (exec_sameParameters h).1
  obtain hmem | ⟨a, b, w, v, -, hw, hmem⟩ := exec_mem_cases h
  · exact hs.of_eq hcfg hmem
  · obtain ⟨hwf, hbound⟩ := hs
    rw [State.memInv, hcfg, hmem]
    exact ⟨Memory.wf_writeWord hwf _ _, Memory.bound_writeWord hbound hw _⟩

/-- The invariant of the stack is about its length alone. -/
theorem State.stackInv.of_length_le {s t : State} (h : s.stackInv) (hcfg : t.cfg = s.cfg)
    (hlen : t.stack.length ≤ s.stack.length) : t.stackInv :=
  fun d hd => hlen.trans (h d (hcfg ▸ hd))

/-- A stack that is not full has room below a finite STACK_DEPTH. -/
theorem length_lt_of_not_stackFull {s : State} (hf : s.stackFull = false) {d : Nat} (hd : d ∈ s.cfg.stackDepth) :
    s.stack.length < d := by
  simpa [State.stackFull, Option.mem_def.1 hd] using hf

/-- The stack grows by one entry at most, and only when it is not full. -/
theorem Effect.stack_length {i : Instr} {u t : State} (h : Effect i u t) :
    t.stack.length ≤ u.stack.length ∨ u.stackFull = false ∧ t.stack.length = u.stack.length + 1 := by
  cases h with
  | pushed hf => exact .inr ⟨hf, rfl⟩
  | called hf => exact .inr ⟨hf, rfl⟩
  | popped _ hs => exact .inl (by simp [hs])
  | returned hs => exact .inl (by simp [hs])
  | _ => exact .inl (by simp)

theorem Effect.stackInv {i : Instr} {u t : State} (h : Effect i u t) (hu : u.stackInv) : t.stackInv := by
  obtain hlen | ⟨hf, hlen⟩ := h.stack_length
  · exact hu.of_length_le h.sameParameters.1 hlen
  · intro d hd
    exact hlen ▸ length_lt_of_not_stackFull hf (h.sameParameters.1 ▸ hd)

theorem exec_stackInv {i : Instr} {s t : State} (h : exec i s = .next t) (hs : s.stackInv) : t.stackInv :=
  (effect_of_exec h).stackInv (hs.of_length_le (taken_like i s).cfg (congrArg List.length (taken_like i s).stack).le)

/-- Only an Input that waits leaves its Number in the latch, and it leaves halt and err alone. -/
theorem Effect.waiting {i : Instr} {u t : State} (h : Effect i u t) :
    t.waiting = u.waiting ∨ t.waiting = none ∨ t.halt = u.halt ∧ t.err = u.err := by
  cases h with
  | took => exact .inr (.inl (by simp))
  | waited => exact .inr (.inr ⟨rfl, rfl⟩)
  | _ => exact .inl (by simp)

/-- The instructions that set halt record no error. -/
theorem exec_sets_halt_err {i : Instr} {s t : State} (h : exec i s = .next t) (hs : s.halt = false) (ht : t.halt = true) :
    t.err = s.err := by
  obtain rfl | ⟨rfl, hst⟩ := exec_sets_halt h hs ht
  · cases h; rfl
  · simp only [exec, execReturn, hst] at h
    cases h; rfl

/-- An Input that waits has recorded nothing but the DecodeError of its operand. -/
theorem exec_waiting {i : Instr} {s t : State} (h : exec i s = .next t) (hs : s.waiting = none) (ht : t.waiting ≠ none) :
    t.halt = s.halt ∧ (t.err = s.err ∨ s.err = .none ∧ t.err = .decodeError) := by
  have htaken := taken_like i s
  obtain heq | heq | ⟨hhalt, herr⟩ := (effect_of_exec h).waiting
  · exact absurd (heq.trans (htaken.waiting.trans hs)) ht
  · exact absurd heq ht
  · exact ⟨hhalt.trans htaken.halt, herr ▸ htaken.err⟩

/-- Execute in a cycle that begins (neither flag set, no Input waiting) keeps the rules of the flags. -/
theorem exec_statusInv {i : Instr} {s t : State} (h : exec i s = .next t) (hterm : s.terminal = false)
    (hw : s.waiting = none) : t.statusInv := by
  obtain ⟨hhalt, herr⟩ := terminal_eq_false.1 hterm
  refine ⟨fun ht => (exec_sets_halt_err h hhalt ht).trans herr, fun ht => ?_⟩
  obtain ⟨hhalt', herr'⟩ := exec_waiting h hw ht
  exact ⟨hhalt'.trans hhalt, herr'.imp (·.trans herr) And.right⟩

/-- A waiting Input keeps the invariant, whether a word is there or not. -/
theorem State.Inv.takeInput {s : State} (h : s.Inv) (hw : s.waiting ≠ none) (a : Number) : (takeInput a s).Inv := by
  obtain ⟨hcfg, hmem, hstack, -, hwait⟩ := h
  obtain ⟨hhalt, herr⟩ := hwait hw
  exact ⟨by simpa using hcfg, hmem.of_eq (by simp) (by simp), hstack.of_length_le (by simp) (by simp), by simp [hhalt],
    fun _ => by simpa using ⟨hhalt, herr⟩⟩

/-- Execute in a cycle that begins keeps the invariant. -/
theorem State.Inv.exec {i : Instr} {s t : State} (h : s.Inv) (hterm : s.terminal = false) (hw : s.waiting = none)
    (ht : exec i s = .next t) : t.Inv := by
  obtain ⟨hcfg, hmem, hstack, -⟩ := h
  exact ⟨(exec_sameParameters ht).1 ▸ hcfg, exec_memInv ht hmem, exec_stackInv ht hstack, exec_statusInv ht hterm hw⟩

/-- An error recorded with halt clear and no Input waiting keeps the invariant. -/
theorem State.Inv.raise {s : State} (h : s.Inv) (hhalt : s.halt = false) (hw : s.waiting = none) (e : Err) :
    (s.raise e).Inv := by
  obtain ⟨hcfg, hmem, hstack, -⟩ := h
  exact ⟨by simpa using hcfg, hmem.of_eq (by simp) (by simp), hstack.of_length_le (by simp) (by simp), by simp [hhalt],
    by simp [hw]⟩

/-- Settles O55: each of the four things a step can do keeps the invariant; a cycle begins only with neither flag set, and
Fetch changes only pc and the trace, of which the invariant does not speak. -/
theorem stepKeepsInvariant : Obligations.StepKeepsInvariant := by
  intro s t hs ht
  obtain ⟨a, hw, rfl⟩ | ⟨-, -, rfl⟩ | ⟨hw, hterm, i, u, hf, he⟩ | ⟨hw, hterm, hf⟩ := step_next ht
  case inl => exact hs.takeInput (by simp [hw]) a
  case inr.inl => exact hs
  case inr.inr.inl =>
    obtain ⟨pc, tr, rfl⟩ := fetch_run_frame hf
    exact State.Inv.exec (s := { s with pc := pc, trace := tr }) hs hterm hw he
  case inr.inr.inr =>
    obtain ⟨-, -, -, rfl⟩ := fetch_ended hf
    exact State.Inv.raise (s := s.advancePc _) hs (terminal_eq_false.1 hterm).1 hw _

/-! ## Byte order (20_memory.md R31, R33) -/

theorem toNat_wordOfBytes (lo hi : Byte) : (wordOfBytes lo hi).toNat = lo.toNat + 256 * hi.toNat := by
  have hor := Nat.two_pow_add_eq_or_of_lt lo.isLt hi.toNat
  rw [wordOfBytes, BitVec.toNat_append, Nat.shiftLeft_eq, Nat.mul_comm hi.toNat, ← hor, Nat.add_comm]

theorem toNat_lowByte (v : Word) : (lowByte v).toNat = v.toNat % 256 := by
  simp [lowByte]

theorem toNat_highByte (v : Word) : (highByte v).toNat = v.toNat / 256 := by
  have hv := v.isLt
  simp only [highByte, BitVec.extractLsb'_toNat, Nat.shiftRight_eq_div_pow]
  omega

/-- Settles O7: a word is its two bytes put together, and a write of a word is a write of each of them. -/
theorem memoryIsLittleEndian : Obligations.MemoryIsLittleEndian := by
  refine ⟨fun m w => toNat_wordOfBytes _ _, fun s => toNat_wordOfBytes _ _, fun m w v hm => ⟨?_, ?_, ?_, ?_, ?_⟩⟩
  · rw [Memory.readByte_writeWord_low hm, toNat_lowByte]
  · rw [Memory.readByte_writeWord_high hm, toNat_highByte]
  · exact fun a hlow hhigh => Memory.readByte_writeWord_ne m hlow hhigh v
  · exact Memory.readWord_writeWord_same hm w v
  · exact Memory.wf_writeWord hm w v

/-! ## The canonical form (log 4) -/

/-- A memory in canonical form lists a cell exactly when its byte is read there and is no unlisted one. -/
theorem Memory.mem_iff_readByte {m : Memory} (hm : m.wf) (c : Host.Cell) :
    c ∈ m ↔ c.2 ≠ unlistedByte ∧ m.readByte c.1 = c.2 := by
  induction m with
  | nil => simp [readByte, eq_comm]
  | cons d m ih =>
    obtain ⟨hlt, hd, hm⟩ := wf_cons.1 hm
    rw [List.mem_cons, ih hm, readByte]
    by_cases hc : d.1 = c.1
    · rw [if_pos hc, readByte_of_below fun e he => hc ▸ hlt e he]
      constructor
      · rintro (rfl | ⟨hne, heq⟩)
        · exact ⟨hd, rfl⟩
        · exact absurd heq.symm hne
      · exact fun ⟨_, heq⟩ => .inl (Prod.ext hc.symm heq.symm)
    · rw [if_neg hc, or_iff_right fun heq => hc (congrArg Prod.fst heq.symm)]

/-- Settles O8: the bytes read say which cells are listed, and addresses that rise strictly say in which order. -/
theorem canonicalMemoryIsUnique : Obligations.CanonicalMemoryIsUnique := by
  intro m n hm hn hread
  have hirrefl : Std.Irrefl fun c d : Host.Cell => c.1 < d.1 := ⟨fun c => lt_irrefl c.1⟩
  have hasymm : Std.Antisymm fun c d : Host.Cell => c.1 < d.1 := ⟨fun c d h k => absurd h k.asymm⟩
  refine List.Pairwise.eq_of_mem_iff hm.1 hn.1 fun {c} => ?_
  rw [Memory.mem_iff_readByte hm, Memory.mem_iff_readByte hn, hread]

/-! ## A stored word is fetched (20_memory.md R42) -/

/-- An operand that carries a value is legal, and the value is its Number's. -/
theorem Carries.legalNumber {s : State} {o : Operand} {v : Word} (h : Carries s o v) :
    o.legal = true ∧ numVal (legalNumber s o) = v := by
  cases o with
  | lit l => exact ⟨rfl, BitVec.eq_of_toNat_eq ((BitVec.toNat_setWidth_of_le (by decide)).trans (Eq.symm h))⟩
  | reg r => exact ⟨rfl, Eq.symm h⟩
  | invalid w => cases h

theorem exec_writeMemory_of_carries {s : State} {a b : Operand} {w v : Word} (ha : Carries s a w) (hb : Carries s b v)
    (hw : w.toNat < s.cfg.memWords) :
    exec (.writeMemory a b) s = .next (s.setMem (s.mem.writeWord w.toNat v)) := by
  obtain ⟨hla, hva⟩ := ha.legalNumber
  obtain ⟨hlb, hvb⟩ := hb.legalNumber
  simp only [exec, execWriteMemory, run2_legal hla hlb, hva, hvb, State.storeWord, if_pos hw]

/-- The operands an opcode takes are the first of those it is given. -/
theorem Op.operands_instr (o : Op) (f : Nat → Operand) :
    (o.instr (f 1) (f 2) (f 3)).operands = (List.range o.arity).map fun k => f (k + 1) := by
  cases o <;> rfl

/-- The operands of the instruction read from a sequence of words are its operand words decoded, as many as its opcode word
counts. -/
theorem operands_instrOfWords (t : OpcodeTable) (w : Word) (arg : Nat → Word) :
    (instrOfWords t w arg).operands = (List.range (operandCount t w)).map fun k => decodeOperand (arg (k + 1)) := by
  unfold instrOfWords operandCount
  split
  · exact Op.operands_instr _ fun k => decodeOperand (arg k)
  · rfl

/-- The k-th operand of the instruction at pc is the word at pc + k decoded (40_cycle_fetch_decode.md R65). -/
theorem operands_fetchInstr (s : State) {k : Nat} (h1 : 1 ≤ k) (hk : k ≤ fetchCount s) :
    (fetchInstr s).operands[k - 1]? = some (decodeOperand (s.mem.readWord (s.pc.toNat + k))) := by
  have hlt : k - 1 < operandCount s.cfg.opcodes (fetchOpcode s) := by unfold fetchCount at hk; omega
  rw [fetchInstr, operands_instrOfWords, List.getElem?_map, List.getElem?_range hlt, Option.map_some, Nat.sub_add_cancel h1]

/-- An opcode word the numbering does not have is an unrecognized opcode (30_encoding.md R50). -/
theorem fetchInstr_of_unnumbered {s : State} {v : Word} (hv : fetchOpcode s = v) (h : v ∉ s.cfg.opcodes.map Prod.snd) :
    fetchInstr s = .unrecognizedOpcode v := by
  rw [fetchInstr, hv, instrOfWords, OpcodeTable.opOf_eq_none.2 h]

/-- Settles O22: Fetch reads the memory WriteMemory left, where the word stored is read back. -/
theorem storeSeenByNextFetch : Obligations.StoreSeenByNextFetch := by
  intro s a b w v hm ha hb hw
  have hread : (s.mem.writeWord w.toNat v).readWord w.toNat = v := Memory.readWord_writeWord_same hm _ _
  refine ⟨_, exec_writeMemory_of_carries ha hb hw, hread, fun pc k h1 hk hpc => ?_, fun hv => ?_⟩
  · rw [operands_fetchInstr _ h1 hk]
    simp only [State.setMem_mem, hpc, hread]
  · exact fetchInstr_of_unnumbered hread hv

/-! ## Who writes memory (20_memory.md R36, R37) -/

/-- Settles O33, from the effects on memory; which word WriteMemory writes is `execWriteMemory_mem`. -/
theorem onlyWriteMemoryChangesMemory : Obligations.OnlyWriteMemoryChangesMemory := by
  intro i s t h
  constructor
  · intro hi x
    obtain hmem | ⟨a, b, -, -, rfl, -⟩ := exec_mem_cases h
    · rw [hmem]
    · exact absurd rfl (hi a b)
  · rintro a b w rfl rfl
    obtain ⟨hlt, hmem⟩ | ⟨hge, hmem⟩ := execWriteMemory_mem h <;> rw [hmem]
    · exact ⟨fun _ x hlow hhigh => Memory.readByte_writeWord_ne _ hlow hhigh _, fun hge => absurd hlt hge.not_gt⟩
    · exact ⟨fun hlt => absurd hlt hge.not_gt, fun _ _ => rfl⟩

/-! ## The program image (20_memory.md R35) -/

/-- A memory made of an image reads the image from its base on and zeros after it. -/
theorem Memory.readByte_ofBytes (a : Nat) (vs : List Byte) (k : Nat) : (ofBytes a vs).readByte (a + k) = vs.getD k 0 := by
  induction vs generalizing a k with
  | nil => rfl
  | cons v vs ih =>
    cases k with
    | zero =>
      simp only [ofBytes]
      split
      · next hv => rw [hv]; exact readByte_of_below fun d hd => (le_of_mem_ofBytes hd).1
      · simp [readByte]
    | succ k =>
      have htail : (ofBytes (a + 1) vs).readByte (a + (k + 1)) = vs.getD k 0 := by
        rw [← ih (a + 1) k, Nat.add_right_comm, Nat.add_assoc]
      simp only [ofBytes]
      split
      · simpa using htail
      · simpa [readByte] using htail

theorem Memory.readByte_ofBytes_zero (vs : List Byte) (a : Nat) : (ofBytes 0 vs).readByte a = vs.getD a 0 := by
  simpa using readByte_ofBytes 0 vs a

/-- A state with a loaded image, an empty stack and the flags clear meets the invariant. -/
theorem State.Inv.of_image {t : State} {image : List Byte} (hcfg : t.cfg.wf) (hmem : t.mem = Memory.ofBytes 0 image)
    (hlen : image.length ≤ t.cfg.memBytes) (hstack : t.stack = []) (hhalt : t.halt = false) (hw : t.waiting = none) :
    t.Inv := by
  refine ⟨hcfg, ⟨hmem ▸ Memory.wf_ofBytes 0 image, fun c hc => ?_⟩, fun d _ => by simp [hstack], by simp [hhalt],
    by simp [hw]⟩
  have hbound := (Memory.le_of_mem_ofBytes (hmem ▸ hc)).2
  omega

/-- Settles O53: an image that fits is placed over reset values, a longer one is refused. -/
theorem launchPlacesImage : Obligations.LaunchPlacesImage := by
  refine ⟨fun image inputs debug s hlen => ?_, fun image inputs debug s hlen => if_pos hlen⟩
  refine ⟨_, if_neg hlen.not_gt, Memory.readByte_ofBytes_zero image, rfl, rfl, rfl, rfl, rfl, rfl, rfl, rfl, rfl, rfl, rfl, ?_⟩
  exact fun hcfg => .of_image hcfg rfl hlen rfl rfl rfl

end Sys2Proof.Machine

/-! # Encoding: operand words, operand counts, the decoder and the encoder (spec/30_encoding.md) -/

namespace Sys2Proof.Machine

/-! ## The words of a sequence of bytes (30_encoding.md R46) -/

theorem wordAt_cons_cons_zero (lo hi : Byte) (bs : List Byte) : wordAt (lo :: hi :: bs) 0 = wordOfBytes lo hi := rfl

theorem wordAt_cons_cons_succ (lo hi : Byte) (bs : List Byte) (k : Nat) :
    wordAt (lo :: hi :: bs) (k + 1) = wordAt bs k := rfl

theorem bytesOfWord_wordOfBytes (lo hi : Byte) : bytesOfWord (wordOfBytes lo hi) = [lo, hi] := by
  rw [bytesOfWord, Memory.lowByte_wordOfBytes, Memory.highByte_wordOfBytes]

theorem length_flatMap_bytesOfWord (ws : List Word) : (ws.flatMap bytesOfWord).length = 2 * ws.length := by
  simp [List.length_flatMap, bytesOfWord, Nat.mul_comm]

/-- The words of the bytes of some words are these words. -/
theorem wordAt_flatMap_bytesOfWord {ws : List Word} {k : Nat} (hk : k < ws.length) (rest : List Byte) :
    wordAt (ws.flatMap bytesOfWord ++ rest) k = ws.getD k 0 := by
  induction ws generalizing k with
  | nil => cases hk
  | cons w ws ih =>
    cases k with
    | zero => exact Memory.wordOfBytes_low_high w
    | succ k => exact ih (Nat.lt_of_succ_lt_succ hk)

/-- The bytes of the first words of a sequence of bytes are its first bytes. -/
theorem flatMap_bytesOfWord_wordAt {n : Nat} {bs : List Byte} (h : 2 * n ≤ bs.length) :
    ((List.range n).map (wordAt bs)).flatMap bytesOfWord = bs.take (2 * n) := by
  induction n generalizing bs with
  | zero => rfl
  | succ n ih =>
    obtain _ | ⟨lo, _ | ⟨hi, bs⟩⟩ := bs
    · cases h
    · rw [List.length_singleton] at h; omega
    · have htail := ih (bs := bs) (by simp only [List.length_cons] at h; omega)
      simp only [List.range_succ_eq_map, List.map_cons, List.map_map, List.flatMap_cons, wordAt_cons_cons_zero,
        bytesOfWord_wordOfBytes]
      exact congrArg (lo :: hi :: ·) htail

/-! ## The instruction of an opcode word and operand words (30_encoding.md R47, R54) -/

/-- The operands beyond an opcode's count are not looked at. -/
theorem Op.instr_congr {o : Op} {f g : Nat → Operand} (h : ∀ k, 1 ≤ k → k ≤ o.arity → f k = g k) :
    o.instr (f 1) (f 2) (f 3) = o.instr (g 1) (g 2) (g 3) := by
  cases o <;> simp_all [Op.instr, Op.arity]

theorem instrOfWords_congr {t : OpcodeTable} {w : Word} {f g : Nat → Word}
    (h : ∀ k, 1 ≤ k → k ≤ operandCount t w → f k = g k) : instrOfWords t w f = instrOfWords t w g := by
  unfold instrOfWords
  split
  · next o ho =>
    exact Op.instr_congr (f := fun k => decodeOperand (f k)) (g := fun k => decodeOperand (g k)) fun k h1 hk =>
      congrArg decodeOperand (h k h1 (by simpa only [operandCount, ho] using hk))
  · rfl

theorem operandCount_of_unnumbered {t : OpcodeTable} {w : Word} (h : w ∉ t.map Prod.snd) : operandCount t w = 0 := by
  rw [operandCount, OpcodeTable.opOf_eq_none.2 h]

theorem instrOfWords_of_unnumbered {t : OpcodeTable} {w : Word} (h : w ∉ t.map Prod.snd) (arg : Nat → Word) :
    instrOfWords t w arg = .unrecognizedOpcode w := by
  rw [instrOfWords, OpcodeTable.opOf_eq_none.2 h]

theorem Op.opcodeWord_instr (o : Op) (t : OpcodeTable) (a b c : Operand) :
    (o.instr a b c).opcodeWord t = t.numberOf o := by
  cases o <;> rfl

theorem Op.opcodeWf_instr (o : Op) (t : OpcodeTable) (a b c : Operand) : (o.instr a b c).opcodeWf t = true := by
  cases o <;> rfl

theorem opcodeWord_instrOfWords {t : OpcodeTable} (ht : t.wf) (w : Word) (arg : Nat → Word) :
    (instrOfWords t w arg).opcodeWord t = w := by
  unfold instrOfWords
  split
  · next o ho => rw [Op.opcodeWord_instr, OpcodeTable.numberOf_of_opOf ht ho]
  · rfl

/-- Whatever the words, the instruction read from them is well formed. -/
theorem instrOfWords_wf (t : OpcodeTable) (w : Word) (arg : Nat → Word) : (instrOfWords t w arg).wf t = true := by
  have hop : (instrOfWords t w arg).opcodeWf t = true := by
    unfold instrOfWords
    split
    · exact Op.opcodeWf_instr _ _ _ _ _
    · next ho => simpa [Instr.opcodeWf] using OpcodeTable.opOf_eq_none.1 ho
  simp [Instr.wf, hop, operands_instrOfWords, decodeOperand_wf]

/-- The words of the instruction read from some words are these, as many as the opcode word says. -/
theorem encodeWords_instrOfWords {t : OpcodeTable} (ht : t.wf) (arg : Nat → Word) :
    encodeWords t (instrOfWords t (arg 0) arg) = (List.range (1 + operandCount t (arg 0))).map arg := by
  rw [encodeWords, opcodeWord_instrOfWords ht, operands_instrOfWords, Nat.add_comm, List.range_succ_eq_map]
  simp [Function.comp_def, word_decodeOperand]

/-- The instruction read from a well-formed instruction's own words is that instruction. -/
theorem instrOfWords_argWord : ∀ i : Instr, Laws.WordRoundTrip.Statement i
  | .halt => Laws.WordRoundTrip.halt
  | .set a b => Laws.WordRoundTrip.set a b
  | .push a => Laws.WordRoundTrip.push a
  | .pop a => Laws.WordRoundTrip.pop a
  | .equalTo a b c => Laws.WordRoundTrip.equalTo a b c
  | .greaterThan a b c => Laws.WordRoundTrip.greaterThan a b c
  | .jumpTo a => Laws.WordRoundTrip.jumpTo a
  | .jumpToIfNotZero a b => Laws.WordRoundTrip.jumpToIfNotZero a b
  | .jumpToIfZero a b => Laws.WordRoundTrip.jumpToIfZero a b
  | .add a b c => Laws.WordRoundTrip.add a b c
  | .multiply a b c => Laws.WordRoundTrip.multiply a b c
  | .modulous a b c => Laws.WordRoundTrip.modulous a b c
  | .and a b c => Laws.WordRoundTrip.and a b c
  | .or a b c => Laws.WordRoundTrip.or a b c
  | .not a b => Laws.WordRoundTrip.not a b
  | .readMemory a b => Laws.WordRoundTrip.readMemory a b
  | .writeMemory a b => Laws.WordRoundTrip.writeMemory a b
  | .call a => Laws.WordRoundTrip.call a
  | .ret => Laws.WordRoundTrip.ret
  | .output a => Laws.WordRoundTrip.output a
  | .input a => Laws.WordRoundTrip.input a
  | .noOperation => Laws.WordRoundTrip.noOperation
  | .unrecognizedOpcode w => Laws.WordRoundTrip.unrecognizedOpcode w

/-- The opcode word of a well-formed instruction counts its operands. -/
theorem operandCount_opcodeWord {t : OpcodeTable} (ht : t.wf) {i : Instr} (hi : i.wf t = true) :
    operandCount t (i.opcodeWord t) = i.operands.length := by
  have hlen := congrArg (·.operands.length) (instrOfWords_argWord i t ht hi)
  simpa [operands_instrOfWords] using hlen

theorem length_encodeWords (t : OpcodeTable) (i : Instr) : (encodeWords t i).length = 1 + i.operands.length := by
  rw [encodeWords, List.length_cons, List.length_map, Nat.add_comm]

/-- Words that begin with a well-formed instruction's own are read as that instruction. -/
theorem instrOfWords_of_encodeWords {t : OpcodeTable} (ht : t.wf) {i : Instr} (hi : i.wf t = true) {arg : Nat → Word}
    (harg : ∀ k, k < (encodeWords t i).length → arg k = (encodeWords t i).getD k 0) :
    instrOfWords t (i.opcodeWord t) arg = i := by
  rw [length_encodeWords] at harg
  refine Eq.trans (instrOfWords_congr fun k h1 hk => ?_) (instrOfWords_argWord i t ht hi)
  rw [operandCount_opcodeWord ht hi] at hk
  obtain ⟨j, rfl⟩ := Nat.exists_eq_add_of_le' h1
  exact harg (j + 1) (by omega)

/-! ## What the decoder answers (30_encoding.md R54) -/

theorem decode_of_length_lt {bs : List Byte} (h : bs.length < 2) (t : OpcodeTable) :
    decode t bs = .error .noOpcodeWord := by
  obtain _ | ⟨lo, _ | ⟨hi, bs⟩⟩ := bs
  · rfl
  · rfl
  · simp at h

theorem decode_of_le_length {bs : List Byte} (h : 2 ≤ bs.length) (t : OpcodeTable) :
    decode t bs =
      if bs.length < 2 * (1 + operandCount t (wordAt bs 0)) then .error .missingOperandWord
      else .ok (instrOfWords t (wordAt bs 0) (wordAt bs), bs.drop (2 * (1 + operandCount t (wordAt bs 0)))) := by
  obtain _ | ⟨lo, _ | ⟨hi, bs⟩⟩ := bs
  · cases h
  · simp at h
  · have hsize : 2 * (1 + operandCount t (wordAt (lo :: hi :: bs) 0)) =
        2 * operandCount t (wordAt (lo :: hi :: bs) 0) + 2 := by omega
    have hlen : (lo :: hi :: bs).length < 2 * operandCount t (wordAt (lo :: hi :: bs) 0) + 2 ↔
        bs.length < 2 * operandCount t (wordAt (lo :: hi :: bs) 0) := by simp
    rw [hsize]
    exact (if_congr hlen rfl rfl).symm

/-- What the decoder accepts: an opcode word and all its operand words. -/
theorem decode_eq_ok {t : OpcodeTable} {bs : List Byte} {i : Instr} {rest : List Byte} (h : decode t bs = .ok (i, rest)) :
    2 * (1 + operandCount t (wordAt bs 0)) ≤ bs.length ∧ i = instrOfWords t (wordAt bs 0) (wordAt bs) ∧
      rest = bs.drop (2 * (1 + operandCount t (wordAt bs 0))) := by
  obtain hshort | hlong := Nat.lt_or_ge bs.length 2
  · cases (decode_of_length_lt hshort t).symm.trans h
  · rw [decode_of_le_length hlong] at h
    split at h
    · cases h
    · next hlen => cases h; exact ⟨Nat.not_lt.1 hlen, rfl, rfl⟩

/-- Settles O6, by the length of the bytes. -/
theorem decodeRefusesOnlyShortInput : Obligations.DecodeRefusesOnlyShortInput := by
  intro t bs
  obtain hshort | hlong := Nat.lt_or_ge bs.length 2
  · simp [decode_of_length_lt hshort, hshort]
  · have hnot : ¬ bs.length < 2 := Nat.not_lt.2 hlong
    rw [decode_of_le_length hlong]
    split
    · next hlen => simp [hlen, hlong, hnot]
    · next hlen => simp [hlen, hnot]

/-! ## Decoding and encoding -/

/-- Settles O4: the words of the bytes are the instruction's own, and as many as its opcode word says. -/
theorem decodeAfterEncode : Obligations.DecodeAfterEncode := by
  intro t i rest ht hi
  have hword : ∀ k, k < (encodeWords t i).length → wordAt (encode t i ++ rest) k = (encodeWords t i).getD k 0 :=
    fun k hk => wordAt_flatMap_bytesOfWord hk rest
  have hopcode : wordAt (encode t i ++ rest) 0 = i.opcodeWord t := hword 0 (Nat.succ_pos _)
  have hlen : (encode t i).length = 2 * (1 + operandCount t (i.opcodeWord t)) := by
    rw [encode, length_flatMap_bytesOfWord, length_encodeWords, operandCount_opcodeWord ht hi]
  rw [decode_of_le_length (by rw [List.length_append]; omega), hopcode, instrOfWords_of_encodeWords ht hi hword, ← hlen,
    if_neg (by simp), List.drop_left]

/-- Settles O5: the words the decoder reads are those of the instruction it answers, and their bytes are all the bytes before
the rest. -/
theorem encodeAfterDecode : Obligations.EncodeAfterDecode := by
  intro t bs i rest ht h
  obtain ⟨hlen, rfl, rfl⟩ := decode_eq_ok h
  refine ⟨?_, instrOfWords_wf _ _ _⟩
  rw [encode, encodeWords_instrOfWords ht, flatMap_bytesOfWord_wordAt hlen, List.take_append_drop]

/-! ## The kinds of operand word (30_encoding.md R48, 40_cycle_fetch_decode.md R66) -/

/-- Which operand a word is, and in which range. -/
theorem decodeOperand_cases (w : Word) :
    (w.toNat ≤ 32767 ∧ ∃ v : BitVec 15, decodeOperand w = .lit v ∧ v.toNat = w.toNat) ∨
    ((32768 ≤ w.toNat ∧ w.toNat ≤ 32775) ∧ ∃ r : RegIndex, decodeOperand w = .reg r ∧ r.val = w.toNat - 32768) ∨
    (32776 ≤ w.toNat ∧ decodeOperand w = .invalid w) := by
  by_cases hlit : w.toNat ≤ litMax
  · refine .inl ⟨hlit, _, decodeOperand_lit hlit, ?_⟩
    rw [BitVec.toNat_setWidth]
    exact Nat.mod_eq_of_lt (Nat.lt_succ_of_le hlit)
  · by_cases hreg : w.toNat ≤ regTop
    · obtain ⟨_, heq⟩ := decodeOperand_reg (Nat.lt_of_not_le hlit) hreg
      exact .inr (.inl ⟨⟨Nat.lt_of_not_le hlit, hreg⟩, _, heq, rfl⟩)
    · exact .inr (.inr ⟨Nat.lt_of_not_le hreg, decodeOperand_invalid (Nat.lt_of_not_le hreg)⟩)

theorem decodeOperand_eq_lit_iff (w : Word) : (∃ v, decodeOperand w = .lit v) ↔ w.toNat ≤ 32767 := by
  obtain ⟨hw, v, heq, -⟩ | ⟨hw, r, heq, -⟩ | ⟨hw, heq⟩ := decodeOperand_cases w <;> simp [heq] <;> omega

theorem decodeOperand_eq_reg_iff (w : Word) : (∃ r, decodeOperand w = .reg r) ↔ 32768 ≤ w.toNat ∧ w.toNat ≤ 32775 := by
  obtain ⟨hw, v, heq, -⟩ | ⟨hw, r, heq, -⟩ | ⟨hw, heq⟩ := decodeOperand_cases w <;> simp [heq] <;> omega

theorem decodeOperand_legal {w : Word} (h : w.toNat ≤ 32775) : (decodeOperand w).legal = true := by
  obtain ⟨hw, v, heq, -⟩ | ⟨hw, r, heq, -⟩ | ⟨hw, heq⟩ := decodeOperand_cases w
  · rw [heq]; rfl
  · rw [heq]; rfl
  · omega

theorem getLsbD_15_eq_decide (w : Word) : w.getLsbD 15 = decide (32768 ≤ w.toNat) := by
  rw [← BitVec.msb_eq_getLsbD_last w, BitVec.msb_eq_decide]

theorem extractLsb'_3_12_eq_zero_iff (w : Word) : w.extractLsb' 3 12 = 0 ↔ w.toNat / 8 % 4096 = 0 := by
  rw [← BitVec.toNat_inj, BitVec.extractLsb'_toNat, Nat.shiftRight_eq_div_pow]
  rfl

/-- The Number of a legal operand is the one it is seen as. -/
theorem seenAs_legalNumber (s : State) {o : Operand} (h : o.legal = true) : SeenAs s o (legalNumber s o) := by
  cases o with
  | lit l => exact ⟨_, BitVec.toNat_setWidth_of_le (by decide), rfl⟩
  | reg r => rfl
  | invalid w => cases h

/-- Settles O1: the ranges from `decodeOperand_cases`, the bits by what bit 15 and bits 14 to 3 are of the word's value, the
resolver from its law for legal operands. -/
theorem operandWordKinds : Obligations.OperandWordKinds := by
  refine ⟨fun w h => ?_, fun w h k => ?_, fun w h => decodeOperand_invalid h, fun w => ?_, fun w => ?_, by decide, by decide,
    by decide, fun s w h => ?_, fun s w h h0 => ?_, fun s o => ?_, operands_instrOfWords, fun t w arg h =>
    instrOfWords_of_unnumbered h arg⟩
  · obtain ⟨-, hlit⟩ | ⟨hw, -⟩ | ⟨hw, -⟩ := decodeOperand_cases w
    · exact hlit
    · omega
    · omega
  · obtain ⟨hw, -⟩ | ⟨-, hreg⟩ | ⟨hw, -⟩ := decodeOperand_cases w
    · omega
    · exact hreg
    · omega
  · rw [decodeOperand_eq_lit_iff, getLsbD_15_eq_decide, decide_eq_false_iff_not]
    omega
  · have hw := w.isLt
    rw [decodeOperand_eq_reg_iff, getLsbD_15_eq_decide, decide_eq_true_iff, extractLsb'_3_12_eq_zero_iff]
    omega
  · have hlegal := decodeOperand_legal h
    rw [resolve_legal hlegal]
    exact ⟨seenAs_legalNumber s hlegal, rfl⟩
  · rw [decodeOperand_invalid h]
    simp [h0]
  · have htaken := resolve_like o s
    exact ⟨htaken.regs, htaken.mem, htaken.stack, htaken.pc⟩

/-! ## Operand counts and sample words (30_encoding.md R47, R49) -/

/-- Settles O2: each opcode is looked at in each group. -/
theorem operandCountGroups : Obligations.OperandCountGroups := by
  refine ⟨fun o => ?_, by decide, rfl, Op.mem_all, fun t w => operandCount_of_unnumbered⟩
  cases o <;> decide

/-- Settles O3, by running the decoder on each word. -/
theorem sampleWordsDecode : Obligations.SampleWordsDecode := by
  unfold Obligations.SampleWordsDecode
  decide

end Sys2Proof.Machine

/-! # The cycle: Fetch, the pc advance, the destination guard, the debug exposure point (spec/40_cycle_fetch_decode.md) -/

namespace Sys2Proof.Machine

/-! ## The destination guard (40_cycle_fetch_decode.md R73) -/

/-- With legal operands and a literal destination, every rule under the destination guard answers the state it was given. -/
theorem exec_literal_dest {i : Instr} {l : BitVec 15} (hd : i.dest = some (.lit l)) (hlegal : i.legal = true)
    (hin : ∀ a, i ≠ .input a) (s : State) : exec i s = .next s := by
  have hl : ∀ o ∈ i.operands, o.legal = true := List.all_eq_true.1 hlegal
  have hlit : (Operand.lit l).legal = true := rfl
  cases i with simp only [exec]
  | input a => exact absurd rfl (hin a)
  | pop a => cases hd; rfl
  | set a b | not a b | readMemory a b =>
    cases hd
    exact run2_legal hlit (hl b (by simp [Instr.operands])) s _
  | add a b c | multiply a b c | modulous a b c | and a b c | or a b c | equalTo a b c | greaterThan a b c =>
    cases hd
    exact run3_legal hlit (hl b (by simp [Instr.operands])) (hl c (by simp [Instr.operands])) s _
  | _ => cases hd

/-- Settles O31: every rule but Input's is under the guard; Input takes its word before it comes to the guard. -/
theorem literalDestinationWritesNothing : Obligations.LiteralDestinationWritesNothing := by
  refine ⟨fun i s l hd hlegal hin => exec_literal_dest hd hlegal hin s, fun s l v vs hw hin => ?_⟩
  have htake : exec (.input (.lit l)) s = .next (s.setInput vs none) := by
    simp only [exec, execInput, run1, resolve_lit, takeInput, hin, writeDest_lit]
  rw [htake, ← hw]
  rfl

/-! ## The debug exposure point (40_cycle_fetch_decode.md R69, 60_exceptions.md R145) -/

@[simp] theorem writeDest_trace (n : Number) (v : Word) (s : State) : (writeDest n v s).trace = s.trace := by
  cases n <;> rfl

theorem Effect.trace {i : Instr} {u t : State} (h : Effect i u t) : t.trace = u.trace := by
  cases h <;> simp

theorem exec_trace {i : Instr} {s t : State} (h : exec i s = .next t) : t.trace = s.trace :=
  (effect_of_exec h).trace.trans (taken_like i s).trace

/-- Fetch hands over a state it has exposed, and before that it has written pc alone. -/
theorem fetch_run_expose {i : Instr} {s u : State} (h : fetch s = .run i u) : ∃ pc, u = expose i (s.setPc pc) := by
  obtain ⟨-, rfl, rfl⟩ | ⟨-, -, -, rfl, rfl⟩ := fetch_run h
  · exact ⟨s.pc, rfl⟩
  · exact ⟨_, rfl⟩

/-- The record shows each legal operand as resolved. -/
theorem debugEntry_numbers_seen {i : Instr} (hlegal : i.legal = true) (s : State) :
    List.Forall₂ (SeenAs s) i.operands (debugEntry i s).numbers := by
  have hl : ∀ o ∈ i.operands, o.legal = true := List.all_eq_true.1 hlegal
  have hnum : (debugEntry i s).numbers = i.operands.map (legalNumber s) := congrArg Prod.fst (resolveAll_legal hlegal s)
  rw [hnum, List.forall₂_map_right_iff, List.forall₂_same]
  exact fun o ho => seenAs_legalNumber s (hl o ho)

/-- How an operand is seen does not depend on pc. -/
theorem seenAs_setPc (s : State) (pc : Word) : SeenAs (s.setPc pc) = SeenAs s := by
  funext o n
  cases o <;> rfl

/-- Settles O59: the record is made by `expose` on a state that differs from the one before in pc alone. -/
theorem debugRecordContents : Obligations.DebugRecordContents := by
  refine ⟨fun s u i h hon => ?_, fun s u i h hoff => ?_, fun i s t => exec_trace⟩
  · obtain ⟨pc, rfl⟩ := fetch_run_expose h
    refine ⟨debugEntry i (s.setPc pc), by simp [hon], rfl, rfl, rfl, resolveAll_length _ _, fun hlegal => ?_⟩
    exact seenAs_setPc s pc ▸ debugEntry_numbers_seen hlegal _
  · obtain ⟨pc, rfl⟩ := fetch_run_expose h
    simp [hoff]

/-! ## Terminal states (40_cycle_fetch_decode.md R60, R74) -/

theorem terminal_of_err {s : State} (h : s.err ≠ .none) : s.terminal = true := by
  rw [State.terminal, bne_iff_ne.2 h, Bool.or_true]

/-- A state that steps to itself is where any number of steps leaves it. -/
theorem run_of_step_self (M : Host.Core) {s : M.State} (h : M.step s = .next s) (n : Nat) : M.run n s = .next s := by
  induction n with
  | zero => rfl
  | succ n ih => rw [Host.Core.run, h]; exact ih

/-- Settles O44: one step answers the same state, and so, by induction, does any number of steps. -/
theorem terminalStateStays : Obligations.TerminalStateStays := by
  intro s n hw hflag
  have hstep : step s = .next s := step_of_terminal hw (hflag.elim terminal_of_halt terminal_of_err)
  exact ⟨hstep, run_of_step_self Sys2Proof.core hstep n⟩

/-! ## The ceiling (40_cycle_fetch_decode.md R61) -/

theorem step_of_ceiling {s : State} (hw : s.waiting = none) (hterm : s.terminal = false)
    (hceil : s.cfg.pcCeiling ≤ s.pc.toNat) : step s = .next (expose .halt s).setHalt :=
  step_of_fetch_run hw hterm (fetch_of_ceiling hceil)

/-- What is exposed of a Halt does not depend on memory. -/
theorem expose_halt_setMem (s : State) (m : Memory) : expose .halt (s.setMem m) = (expose .halt s).setMem m := by
  unfold expose
  rw [State.setMem_debugOn]
  split <;> rfl

/-- Settles O45: the step is the synthesized Halt on the exposed state, with whatever memory. -/
theorem ceilingHalts : Obligations.CeilingHalts := by
  intro s hw hh he hceil
  have hterm : s.terminal = false := terminal_eq_false.2 ⟨hh, he⟩
  refine ⟨_, step_of_ceiling hw hterm hceil, congrArg State.setHalt (expose_eq .halt s), fun m => ?_⟩
  exact ⟨_, step_of_ceiling (s := s.setMem m) hw hterm hceil, congrArg State.setHalt (expose_halt_setMem s m)⟩

/-! ## The pc advance (40_cycle_fetch_decode.md R68) -/

theorem operandCount_le_three (t : OpcodeTable) (w : Word) : operandCount t w ≤ 3 := by
  unfold operandCount
  split
  · next o _ => cases o <;> decide
  · exact Nat.zero_le 3

/-- From below the ceiling the advance past an opcode word and at most three operand words stays far below 65536. -/
theorem toNat_advancePc_fetchCount {s : State} (hcfg : s.cfg.wf) (hpc : s.pc.toNat < s.cfg.pcCeiling) :
    (s.advancePc (fetchCount s)).pc.toNat = s.pc.toNat + 1 + fetchCount s := by
  obtain ⟨-, hmem, hceil, -⟩ := hcfg
  have hcount : fetchCount s ≤ 3 := operandCount_le_three _ _
  rw [State.advancePc_pc, BitVec.toNat_add, BitVec.toNat_ofNat]
  omega

theorem length_operands_fetchInstr (s : State) : (fetchInstr s).operands.length = fetchCount s := by
  rw [fetchInstr, operands_instrOfWords, List.length_map, List.length_range, fetchCount]

/-- Settles O48: a sum without carry, and the decoder takes as many operands as Fetch counts. -/
theorem pcAdvanceNeverWraps : Obligations.PcAdvanceNeverWraps :=
  fun s hcfg hpc => ⟨toNat_advancePc_fetchCount hcfg hpc, (length_operands_fetchInstr s).symm⟩

/-! ## A missing operand word (40_cycle_fetch_decode.md R64) -/

theorem fetch_of_missing_operand {s : State} (hpc : s.pc.toNat < s.cfg.pcCeiling) (hin : s.pc.toNat < s.cfg.memWords)
    (hcount : 0 < fetchCount s) (hout : s.cfg.memWords ≤ s.pc.toNat + fetchCount s) :
    fetch s = .ended ((s.advancePc (fetchCount s)).raise .fetchOutOfRange) := by
  rw [fetch, if_neg hpc.not_ge, if_neg hin.not_ge, if_pos ⟨hcount, hout⟩]

theorem step_of_fetch_ended {s t : State} (hw : s.waiting = none) (hterm : s.terminal = false) (hf : fetch s = .ended t) :
    step s = .next t := by
  simp only [step, hw, hterm, hf, Bool.false_eq_true, if_false]

/-- Settles O46: R3 puts the opcode word inside the memory, so the cycle ends at the operand words. -/
theorem missingOperandIsFetchOutOfRange : Obligations.MissingOperandIsFetchOutOfRange := by
  intro s hcfg hw hh he hpc hcount hout
  have ⟨_, _, hceil, _⟩ := hcfg
  have hf := fetch_of_missing_operand hpc (hpc.trans_le hceil) hcount hout
  rw [State.raise_of_none (s := s.advancePc _) he] at hf
  exact ⟨_, toNat_advancePc_fetchCount hcfg hpc, step_of_fetch_ended hw (terminal_eq_false.2 ⟨hh, he⟩) hf⟩

/-! ## The instruction at pc (40_cycle_fetch_decode.md R60, R62 to R70) -/

theorem fetch_of_inside {s : State} (hpc : s.pc.toNat < s.cfg.pcCeiling)
    (hin : s.pc.toNat + fetchCount s < s.cfg.memWords) :
    fetch s = .run (fetchInstr s) (expose (fetchInstr s) (s.advancePc (fetchCount s))) := by
  have hop : s.pc.toNat < s.cfg.memWords := (Nat.le_add_right _ _).trans_lt hin
  rw [fetch, if_neg hpc.not_ge, if_neg hop.not_ge, if_neg fun h => hin.not_ge h.2]

/-- Memory that holds the bytes of some words from word address `w` on reads these words there (20_memory.md R31). -/
theorem Memory.readWord_of_bytes {m : Memory} {w : Nat} {ws : List Word}
    (h : ∀ k, k < (ws.flatMap bytesOfWord).length → m.readByte (2 * w + k) = (ws.flatMap bytesOfWord).getD k 0)
    {k : Nat} (hk : k < ws.length) : m.readWord (w + k) = ws.getD k 0 := by
  rw [length_flatMap_bytesOfWord] at h
  have hlow := h (2 * k) (by omega)
  have hhigh := h (2 * k + 1) (by omega)
  have hword := wordAt_flatMap_bytesOfWord hk []
  rw [List.append_nil] at hword
  rw [Memory.readWord, Nat.mul_add, Nat.add_assoc, hlow, hhigh]
  exact hword

/-- Settles O47: the words at pc are the instruction's own, so Fetch reads that instruction and counts its operands. -/
theorem stepRunsDecodedInstruction : Obligations.StepRunsDecodedInstruction := by
  intro s i hw hh he ht hi hpc hin hbytes
  have hword : ∀ k, k < (encodeWords s.cfg.opcodes i).length →
      s.mem.readWord (s.pc.toNat + k) = (encodeWords s.cfg.opcodes i).getD k 0 :=
    fun k => Memory.readWord_of_bytes hbytes
  have hopcode : fetchOpcode s = i.opcodeWord s.cfg.opcodes := hword 0 (Nat.succ_pos _)
  have hinstr : fetchInstr s = i := by rw [fetchInstr, hopcode, instrOfWords_of_encodeWords ht hi hword]
  have hcount : fetchCount s = i.operands.length := by rw [← length_operands_fetchInstr, hinstr]
  have hf := fetch_of_inside hpc (hcount ▸ hin)
  rw [hinstr, hcount] at hf
  exact step_of_fetch_run hw (terminal_eq_false.2 ⟨hh, he⟩) hf

end Sys2Proof.Machine

/-! # Data movement and the stack: Set, Push, Pop (spec/41_data_stack.md) -/

namespace Sys2Proof.Machine

/-! ## Destinations and invalid operands -/

/-- Under the destination guard a legal destination is stored into if it is a register, and not at all if it is a literal
(40_cycle_fetch_decode.md R73). -/
theorem writeDest_legalNumber (s : State) {a : Operand} (h : a.legal = true) (v : Word) (u : State) :
    writeDest (legalNumber s a) v u = Into u a v := by
  cases a with
  | lit l => rfl
  | reg r => rfl
  | invalid w => cases h

/-- An error recorded while the operands were taken is not replaced by Execute (60_exceptions.md R131). -/
theorem Effect.err_of_err {i : Instr} {u t : State} (h : Effect i u t) (hu : u.err ≠ .none) : t.err = u.err := by
  cases h with
  | raised => rw [State.raise_of_err hu]
  | took => simp
  | _ => rfl

/-- An instruction with an invalid operand ends with the DecodeError recorded as its operands were taken
(40_cycle_fetch_decode.md R67). -/
theorem exec_err_of_invalid {i : Instr} {s t : State} (h : exec i s = .next t) (hi : i.legal = false)
    (hs : s.err = .none) : t.err = .decodeError := by
  have hu : (taken i s).err = .decodeError := resolveAll_invalid hi hs
  exact ((effect_of_exec h).err_of_err (by simp [hu])).trans hu

/-! ## Set (R80) -/

theorem exec_set_of_carries {s : State} {a b : Operand} {p : Word} (ha : a.legal = true) (hb : Carries s b p) :
    exec (.set a b) s = .next (Into s a p) := by
  obtain ⟨hlb, hvb⟩ := hb.legalNumber
  simp only [exec, execSet, run2_legal ha hlb, hvb, writeDest_legalNumber s ha]

/-- Settles O9: the law of Set, and that the DecodeError of an invalid operand stays. -/
theorem setCopiesSource : Obligations.SetCopiesSource := by
  refine ⟨fun s a b p => exec_set_of_carries, fun s a b hi hs => ?_, fun a b t => rfl⟩
  obtain ⟨t, ht, -⟩ := exec_effect (.set a b) s
  exact ⟨t, ht, exec_err_of_invalid ht hi hs⟩

/-! ## Push (R81) and the finite depth (10_state.md R26) -/

theorem stackFull_eq_false_iff {s : State} : s.stackFull = false ↔ RoomOnStack s := by
  cases h : s.cfg.stackDepth <;> simp [State.stackFull, RoomOnStack, h]

theorem stackFull_of_depth_le {s : State} {d : Nat} (hd : s.cfg.stackDepth = some d) (hle : d ≤ s.stack.length) :
    s.stackFull = true := by
  simp [State.stackFull, hd, hle]

theorem roomOnStack_of_unbounded {s : State} (h : s.cfg.stackDepth = none) : RoomOnStack s := by
  simp [RoomOnStack, h]

theorem State.raise_eq_recorded (s : State) (e : Err) : s.raise e = Recorded s e := by
  by_cases h : s.err = .none <;> simp [State.raise, Recorded, h]

theorem exec_push_of_room {s : State} {a : Operand} {p : Word} (ha : Carries s a p) (hroom : RoomOnStack s) :
    exec (.push a) s = .next (s.push p) := by
  obtain ⟨hla, hva⟩ := ha.legalNumber
  simp [exec, execPush, run1_legal hla, hva, stackFull_eq_false_iff.2 hroom]

theorem exec_push_of_full {s : State} {a : Operand} (ha : a.legal = true) (hfull : s.stackFull = true) :
    exec (.push a) s = .next (s.raise .stackOverflow) := by
  simp [exec, execPush, run1_legal ha, hfull]

/-- Settles O10, from the two laws of Push. -/
theorem pushPushesOrOverflows : Obligations.PushPushesOrOverflows := by
  refine ⟨fun s a p => exec_push_of_room, fun s a d ha hd hle => ?_, fun a t => rfl⟩
  rw [exec_push_of_full ha (stackFull_of_depth_le hd hle), State.raise_eq_recorded]

/-! ## Pop (R82) -/

theorem exec_pop_reg_cons {s : State} (r : RegIndex) {v : Word} {st : List Word} (hs : s.stack = v :: st) :
    exec (.pop (.reg r)) s = .next ((s.setStack st).setReg r v) := by
  simp only [exec, execPop, run1, resolve_reg, ifReg_reg, hs]

theorem exec_pop_reg_nil {s : State} (r : RegIndex) (hs : s.stack = []) : exec (.pop (.reg r)) s = .next s := by
  simp only [exec, execPop, run1, resolve_reg, ifReg_reg, hs]

/-- Settles O11, from the two laws of Pop and the one of every literal destination. -/
theorem popTakesTop : Obligations.PopTakesTop :=
  ⟨fun _ r _ _ hs => exec_pop_reg_cons r hs, fun _ r hs => exec_pop_reg_nil r hs,
    fun s _ => exec_literal_dest rfl rfl (by simp) s, fun _ _ => rfl⟩

/-! ## Pushes and then Pops (R81, R82, 10_state.md R16) -/

/-- Pushes of literals change the stack alone, and put the last one on top. -/
theorem execAll_push_literals (vs : List (BitVec 15)) {s : State} (h : s.cfg.stackDepth = none) :
    execAll (vs.map fun v => .push (.lit v)) s =
      .next (s.setStack ((vs.reverse.map fun v => v.setWidth 16) ++ s.stack)) := by
  induction vs generalizing s with
  | nil => rfl
  | cons v vs ih =>
    have hv : Carries s (.lit v) (v.setWidth 16) := carries_legalNumber s (o := .lit v) rfl
    have hpushed : (s.push (v.setWidth 16)).cfg.stackDepth = none := h
    simp only [List.map_cons, execAll, exec_push_of_room hv (roomOnStack_of_unbounded h), ih hpushed]
    simp [State.push, State.setStack]

/-- Pops into a register yield the words on the stack from the top down. -/
theorem popsInto_of_stack (r : RegIndex) {ws st : List Word} {s : State} (hs : s.stack = ws ++ st) :
    popsInto r ws.length s = some ws := by
  induction ws generalizing s with
  | nil => rfl
  | cons w ws ih =>
    simp only [List.length_cons, popsInto, exec_pop_reg_cons r hs]
    rw [ih (by simp)]
    simp

/-- Pops leave the stack below the words they take. -/
theorem execAll_pops (r : RegIndex) {ws st : List Word} {s : State} (hs : s.stack = ws ++ st) :
    ∃ u, execAll (List.replicate ws.length (.pop (.reg r))) s = .next u ∧ u.stack = st := by
  induction ws generalizing s with
  | nil => exact ⟨s, rfl, hs⟩
  | cons w ws ih =>
    simp only [List.length_cons, List.replicate_succ, execAll, exec_pop_reg_cons r hs]
    exact ih rfl

/-- Settles O12: the Pushes leave the values on the stack in reverse order, and the Pops take that part of it. -/
theorem pushesThenPopsReverse : Obligations.PushesThenPopsReverse := by
  intro s r vs h
  have hlen : vs.length = (vs.reverse.map fun v => v.setWidth 16).length := by simp
  refine ⟨_, execAll_push_literals vs h, rfl, ?_, ?_⟩
  · rw [hlen]
    exact popsInto_of_stack r rfl
  · rw [List.map_const', hlen]
    exact execAll_pops r rfl

end Sys2Proof.Machine

/-! # Comparison: EqualTo, GreaterThan (spec/42_compare.md) -/

namespace Sys2Proof.Machine

/-- An instruction that writes a function of two sources to its destination, with legal operands
(40_cycle_fetch_decode.md R66, R73). -/
theorem run3_writeDest_of_carries {s : State} {a b c : Operand} {p q : Word} (f : Word → Word → Word)
    (ha : a.legal = true) (hb : Carries s b p) (hc : Carries s c q) :
    run3 a b c s (fun a b c s => writeDest a (f (numVal b) (numVal c)) s) = .next (Into s a (f p q)) := by
  obtain ⟨hlb, hvb⟩ := hb.legalNumber
  obtain ⟨hlc, hvc⟩ := hc.legalNumber
  rw [run3_legal ha hlb hlc, hvb, hvc, writeDest_legalNumber s ha]

theorem exec_equalTo_of_carries {s : State} {a b c : Operand} {p q : Word} (ha : a.legal = true)
    (hb : Carries s b p) (hc : Carries s c q) : exec (.equalTo a b c) s = .next (Into s a (eqWord p q)) :=
  run3_writeDest_of_carries eqWord ha hb hc

theorem exec_greaterThan_of_carries {s : State} {a b c : Operand} {p q : Word} (ha : a.legal = true)
    (hb : Carries s b p) (hc : Carries s c q) : exec (.greaterThan a b c) s = .next (Into s a (gtWord p q)) :=
  run3_writeDest_of_carries gtWord ha hb hc

/-! ## What the comparisons answer (R85, R86) -/

theorem eqWord_of_toNat_eq {p q : Word} (h : p.toNat = q.toNat) : eqWord p q = 1 := by
  simp [eqWord, boolWord, BitVec.eq_of_toNat_eq h]

theorem eqWord_of_toNat_ne {p q : Word} (h : p.toNat ≠ q.toNat) : eqWord p q = 0 := by
  simp [eqWord, boolWord, BitVec.toNat_ne_iff_ne.1 h]

theorem gtWord_of_gt {p q : Word} (h : p.toNat > q.toNat) : gtWord p q = 1 := by
  simp [gtWord, boolWord, h]

theorem gtWord_of_le {p q : Word} (h : p.toNat ≤ q.toNat) : gtWord p q = 0 := by
  simp [gtWord, boolWord, h]

/-- Settles O13: each instruction stores its comparison's word, which is 1 or 0 as the two numbers compare. -/
theorem comparisonsWriteOneOrZero : Obligations.ComparisonsWriteOneOrZero := by
  refine ⟨fun s a b c p q ha hb hc => ?_, fun a b c => ⟨fun t => rfl, fun t => rfl⟩⟩
  rw [exec_equalTo_of_carries ha hb hc, exec_greaterThan_of_carries ha hb hc]
  refine ⟨fun h => ?_, fun h => ?_, fun h => ?_, fun h => ?_⟩
  · rw [eqWord_of_toNat_eq h]
  · rw [eqWord_of_toNat_ne h]
  · rw [gtWord_of_gt h]
  · rw [gtWord_of_le h]

end Sys2Proof.Machine

/-! # Jumps: JumpTo, JumpToIfNotZero, JumpToIfZero (spec/43_jumps.md) -/

namespace Sys2Proof.Machine

/-- JumpTo with an operand that carries a value (R90). -/
theorem exec_jumpTo_of_carries {s : State} {a : Operand} {p : Word} (ha : Carries s a p) :
    exec (.jumpTo a) s = .next (s.setPc p) := by
  obtain ⟨hla, hva⟩ := ha.legalNumber
  simp only [exec, execJumpTo, run1_legal hla, hva]

/-- JumpToIfNotZero with operands that carry values (R91). -/
theorem exec_jumpToIfNotZero_of_carries {s : State} {a b : Operand} {p q : Word} (ha : Carries s a p)
    (hb : Carries s b q) : exec (.jumpToIfNotZero a b) s = .next (if p ≠ 0 then s.setPc q else s) := by
  obtain ⟨hla, hva⟩ := ha.legalNumber
  obtain ⟨hlb, hvb⟩ := hb.legalNumber
  simp only [exec, execJumpToIfNotZero, run2_legal hla hlb, hva, hvb]

/-- JumpToIfZero with operands that carry values (R92). -/
theorem exec_jumpToIfZero_of_carries {s : State} {a b : Operand} {p q : Word} (ha : Carries s a p)
    (hb : Carries s b q) : exec (.jumpToIfZero a b) s = .next (if p = 0 then s.setPc q else s) := by
  obtain ⟨hla, hva⟩ := ha.legalNumber
  obtain ⟨hlb, hvb⟩ := hb.legalNumber
  simp only [exec, execJumpToIfZero, run2_legal hla hlb, hva, hvb]

/-- Settles O14, from the law of each jump: a zero condition takes one conditional jump, any other the other one. -/
theorem jumpsSetPc : Obligations.JumpsSetPc := by
  refine ⟨fun s a p => exec_jumpTo_of_carries, fun s a b p q ha hb => ?_,
    fun a b => ⟨fun t => rfl, fun t => rfl, fun t => rfl⟩⟩
  rw [exec_jumpToIfNotZero_of_carries ha hb, exec_jumpToIfZero_of_carries ha hb]
  refine ⟨fun hp => ?_, fun hp => ?_⟩
  · have hp0 : p ≠ 0 := BitVec.toNat_ne_iff_ne.1 hp
    exact ⟨by rw [if_pos hp0]; rfl, by rw [if_neg hp0]⟩
  · have hp0 : p = 0 := BitVec.eq_of_toNat_eq hp
    exact ⟨by rw [if_neg (not_not_intro hp0)], by rw [if_pos hp0]; rfl⟩

end Sys2Proof.Machine

/-! # Arithmetic and logic: Add, Multiply, Modulous, And, Or, Not (spec/44_arith_logic.md) -/

namespace Sys2Proof.Machine

/-! ## The instructions on operands that carry values -/

theorem exec_add_of_carries {s : State} {a b c : Operand} {p q : Word} (ha : a.legal = true)
    (hb : Carries s b p) (hc : Carries s c q) : exec (.add a b c) s = .next (Into s a (add15 p q)) :=
  run3_writeDest_of_carries add15 ha hb hc

theorem exec_multiply_of_carries {s : State} {a b c : Operand} {p q : Word} (ha : a.legal = true)
    (hb : Carries s b p) (hc : Carries s c q) : exec (.multiply a b c) s = .next (Into s a (mul15 p q)) :=
  run3_writeDest_of_carries mul15 ha hb hc

theorem exec_and_of_carries {s : State} {a b c : Operand} {p q : Word} (ha : a.legal = true)
    (hb : Carries s b p) (hc : Carries s c q) : exec (.and a b c) s = .next (Into s a (andWord p q)) :=
  run3_writeDest_of_carries andWord ha hb hc

theorem exec_or_of_carries {s : State} {a b c : Operand} {p q : Word} (ha : a.legal = true)
    (hb : Carries s b p) (hc : Carries s c q) : exec (.or a b c) s = .next (Into s a (orWord p q)) :=
  run3_writeDest_of_carries orWord ha hb hc

theorem exec_not_of_carries {s : State} {a b : Operand} {p : Word} (ha : a.legal = true) (hb : Carries s b p) :
    exec (.not a b) s = .next (Into s a (not15 p)) := by
  obtain ⟨hlb, hvb⟩ := hb.legalNumber
  simp only [exec, execNot, run2_legal ha hlb, hvb, writeDest_legalNumber s ha]

/-- Modulous under a register destination: the remainder, or DivideByZero (R100). -/
theorem exec_modulous_reg {s : State} (r : RegIndex) {b c : Operand} {p q : Word} (hb : Carries s b p)
    (hc : Carries s c q) :
    exec (.modulous (.reg r) b c) s = .next (if q = 0 then s.raise .divideByZero else s.setReg r (modWord p q)) := by
  obtain ⟨hlb, hvb⟩ := hb.legalNumber
  obtain ⟨hlc, hvc⟩ := hc.legalNumber
  have hlr : (Operand.reg r).legal = true := rfl
  simp only [exec, execModulous, run3_legal hlr hlb hlc, legalNumber_reg, ifReg_reg, hvb, hvc]

/-- Modulous under a literal destination does nothing, whatever the divisor (R73, R100). -/
theorem exec_modulous_lit (s : State) (l : BitVec 15) {b c : Operand} (hb : b.legal = true) (hc : c.legal = true) :
    exec (.modulous (.lit l) b c) s = .next s := by
  have hlit : (Operand.lit l).legal = true := rfl
  have hlegal : (Instr.modulous (.lit l) b c).legal = true := by simp [Instr.legal, Instr.operands, hlit, hb, hc]
  exact exec_literal_dest rfl hlegal (by simp) s

/-- Modulous with a divisor that is not 0 writes the remainder under the destination guard (R100). -/
theorem exec_modulous_of_ne_zero {s : State} {a b c : Operand} {p q : Word} (ha : a.legal = true)
    (hb : Carries s b p) (hc : Carries s c q) (hq : q ≠ 0) :
    exec (.modulous a b c) s = .next (Into s a (modWord p q)) := by
  cases a with
  | lit l => exact exec_modulous_lit s l hb.legalNumber.1 hc.legalNumber.1
  | reg r => rw [exec_modulous_reg r hb hc, if_neg hq]; rfl
  | invalid w => cases ha

/-! ## The values of the ALU's functions (R95) -/

theorem toNat_add15 (p q : Word) : (add15 p q).toNat = (p.toNat + q.toNat) % 32768 := by
  simp only [add15, modulus, BitVec.toNat_ofNat]
  omega

theorem toNat_mul15 (p q : Word) : (mul15 p q).toNat = p.toNat * q.toNat % 32768 := by
  simp only [mul15, modulus, BitVec.toNat_ofNat]
  omega

theorem toNat_modWord (p q : Word) : (modWord p q).toNat = p.toNat % q.toNat :=
  Nat.mod_eq_of_lt ((Nat.mod_le _ _).trans_lt p.isLt)

/-- NOT15 inverts bits 14..0 and leaves bit 15. -/
theorem getLsbD_not15 (p : Word) {k : Nat} (hk : k < 16) : (not15 p).getLsbD k = (decide (k < 15) ^^ p.getLsbD k) := by
  have hmask : ∀ k < 16, (0x7FFF#16).getLsbD k = decide (k < 15) := by decide
  rw [not15, BitVec.getLsbD_xor, hmask k hk]

/-- The mask 0x7FFF reduces modulo 32768. -/
theorem toNat_and_0x7FFF (w : Word) : (w &&& 0x7FFF#16).toNat = w.toNat % 32768 :=
  (BitVec.toNat_and w _).trans (Nat.and_two_pow_sub_one_eq_mod w.toNat 15)

/-! ## Reducing after a truncation (R96) -/

theorem add15_eq_and (p q : Word) : add15 p q = (p + q) &&& 0x7FFF#16 := by
  apply BitVec.eq_of_toNat_eq
  rw [toNat_add15, toNat_and_0x7FFF, BitVec.toNat_add, Nat.mod_mod_of_dvd _ (by decide)]

theorem mul15_eq_and (p q : Word) : mul15 p q = (p * q) &&& 0x7FFF#16 := by
  apply BitVec.eq_of_toNat_eq
  rw [toNat_mul15, toNat_and_0x7FFF, BitVec.toNat_mul, Nat.mod_mod_of_dvd _ (by decide)]

/-! ## Not twice (R97) -/

/-- NOT15 is its own inverse: it flips the same bits back. -/
theorem not15_not15 (p : Word) : not15 (not15 p) = p := by
  rw [not15, not15, ← BitVec.xor_assoc, BitVec.xor_self, BitVec.zero_xor]

/-- A register written and then given its first content back. -/
theorem State.setReg_setReg_getReg (s : State) (r : RegIndex) (v : Word) :
    (s.setReg r v).setReg r (s.getReg r) = s := by
  simp [State.setReg, State.getReg]

/-! ## The obligations -/

/-- Settles O15, from the laws of the two instructions and the values of their functions. -/
theorem addMultiplyModulo : Obligations.AddMultiplyModulo := by
  refine ⟨fun s a b c p q ha hb hc => ⟨?_, ?_⟩, fun a b c => ⟨fun t => rfl, fun t => rfl⟩⟩
  · exact ⟨_, toNat_add15 p q, exec_add_of_carries ha hb hc⟩
  · exact ⟨_, toNat_mul15 p q, exec_multiply_of_carries ha hb hc⟩

/-- Settles O16: 32768 divides both 65536 and 4294967296, so a truncation first does not change the residue. -/
theorem truncateThenReduceAgrees : Obligations.TruncateThenReduceAgrees := by
  intro p q
  refine ⟨?_, ?_, ?_, add15_eq_and p q, mul15_eq_and p q, inRange_add15 p q, inRange_mul15 p q⟩
  · rw [toNat_add15, Nat.mod_mod_of_dvd _ (by decide)]
  · rw [toNat_mul15, Nat.mod_mod_of_dvd _ (by decide)]
  · rw [toNat_mul15, Nat.mod_mod_of_dvd _ (by decide)]

/-- Settles O17: the remainder by the division law of the naturals, the error and the literal destination by the laws of
Modulous. -/
theorem modulousRemainderOrError : Obligations.ModulousRemainderOrError := by
  refine ⟨fun s a b c p q ha hb hc hq => ?_, fun s r b c q hb hc hq => ?_,
    fun s l b c => exec_modulous_lit s l, fun a b c t => rfl⟩
  · refine ⟨modWord p q, ?_, ?_, exec_modulous_of_ne_zero ha hb hc (BitVec.toNat_ne_iff_ne.1 hq)⟩
    · exact toNat_modWord p q ▸ Nat.mod_lt _ (Nat.pos_of_ne_zero hq)
    · exact toNat_modWord p q ▸ (Nat.div_add_mod _ _).symm
  · have hq0 : q = 0 := BitVec.eq_of_toNat_eq hq
    rw [exec_modulous_reg r (carries_legalNumber s hb) hc, if_pos hq0, State.raise_eq_recorded]

/-- Settles O18, from the laws of the three instructions and the bits of their functions. -/
theorem logicIsBitwise : Obligations.LogicIsBitwise := by
  refine ⟨fun s a b c p q ha hb hc => ⟨?_, ?_, ?_⟩, fun a b c => ⟨fun t => rfl, fun t => rfl, fun t => rfl⟩⟩
  · exact ⟨_, fun k _ => BitVec.getLsbD_and, exec_and_of_carries ha hb hc⟩
  · exact ⟨_, fun k _ => BitVec.getLsbD_or, exec_or_of_carries ha hb hc⟩
  · refine ⟨_, fun k hk => ?_, ?_, exec_not_of_carries ha hb⟩
    · rw [getLsbD_not15 p (by omega), decide_eq_true hk, Bool.true_xor]
    · rw [getLsbD_not15 p (by decide)]; exact Bool.false_xor _

/-- Settles O19: NOT15 is its own inverse, and the register is given its first content back. -/
theorem notTwiceRestores : Obligations.NotTwiceRestores := by
  intro s r
  have hnot (u : State) : exec (.not (.reg r) (.reg r)) u = .next (u.setReg r (not15 (u.getReg r))) :=
    exec_not_of_carries rfl rfl
  refine ⟨_, hnot s, ?_⟩
  rw [hnot, State.getReg_setReg_same, not15_not15, State.setReg_setReg_getReg]

end Sys2Proof.Machine

/-! # Memory access: ReadMemory, WriteMemory (spec/45_memory_access.md) -/

namespace Sys2Proof.Machine

/-! ## ReadMemory (R105) -/

/-- ReadMemory under a register destination: the word at the address, or AddressOutOfRange (D11). -/
theorem exec_readMemory_reg {s : State} (r : RegIndex) {b : Operand} {w : Word} (hb : Carries s b w) :
    exec (.readMemory (.reg r) b) s = .next
      (if w.toNat < s.cfg.memWords then s.setReg r (s.mem.readWord w.toNat) else s.raise .addressOutOfRange) := by
  obtain ⟨hlb, hvb⟩ := hb.legalNumber
  have hlr : (Operand.reg r).legal = true := rfl
  simp only [exec, execReadMemory, run2_legal hlr hlb, legalNumber_reg, ifReg_reg, hvb, State.loadWord]
  by_cases hw : w.toNat < s.cfg.memWords
  · simp only [if_pos hw]
  · simp only [if_neg hw]

/-- ReadMemory under a literal destination does nothing, whatever the address (R73). -/
theorem exec_readMemory_lit (s : State) (l : BitVec 15) {b : Operand} (hb : b.legal = true) :
    exec (.readMemory (.lit l) b) s = .next s := by
  have hlit : (Operand.lit l).legal = true := rfl
  have hlegal : (Instr.readMemory (.lit l) b).legal = true := by simp [Instr.legal, Instr.operands, hlit, hb]
  exact exec_literal_dest rfl hlegal (by simp) s

/-- Settles O20, from the laws of ReadMemory and the value of a word put together from its bytes. -/
theorem readMemoryLoadsWord : Obligations.ReadMemoryLoadsWord := by
  refine ⟨fun s r b w hb hw => ?_, fun s r b w hb hw => ?_, fun s l b => exec_readMemory_lit s l, fun a b t => rfl⟩
  · refine ⟨_, toNat_wordOfBytes _ _, ?_⟩
    rw [exec_readMemory_reg r hb, if_pos hw]
    rfl
  · rw [exec_readMemory_reg r hb, if_neg hw.not_gt, State.raise_eq_recorded]

/-! ## WriteMemory (R106) -/

/-- WriteMemory at a word that does not exist, whatever the value (D11). -/
theorem exec_writeMemory_of_le {s : State} {a b : Operand} {w : Word} (ha : Carries s a w) (hb : b.legal = true)
    (hw : s.cfg.memWords ≤ w.toNat) : exec (.writeMemory a b) s = .next (s.raise .addressOutOfRange) := by
  obtain ⟨hla, hva⟩ := ha.legalNumber
  simp only [exec, execWriteMemory, run2_legal hla hb, hva, State.storeWord, if_neg hw.not_gt]

/-- Settles O21, from the two laws of WriteMemory and the bytes of a memory with one word written (O7). -/
theorem writeMemoryStoresWord : Obligations.WriteMemoryStoresWord := by
  refine ⟨fun s a b w v hm ha hb hw => ?_, fun s a b w ha hb hw => ?_, fun a b t => rfl⟩
  · obtain ⟨-, -, hwrite⟩ := memoryIsLittleEndian
    obtain ⟨hlow, hhigh, hother, -, hwf⟩ := hwrite s.mem w.toNat v hm
    exact ⟨_, exec_writeMemory_of_carries ha hb hw, hwf, hlow, hhigh, hother⟩
  · rw [exec_writeMemory_of_le ha hb hw, State.raise_eq_recorded]

end Sys2Proof.Machine

/-! # Subroutines: Call, Return (spec/46_call_return.md) -/

namespace Sys2Proof.Machine

/-! ## Call (R110) and the finite depth (10_state.md R26) -/

theorem exec_call_of_room {s : State} {a : Operand} {p : Word} (ha : Carries s a p) (hroom : RoomOnStack s) :
    exec (.call a) s = .next ((s.push s.pc).setPc p) := by
  obtain ⟨hla, hva⟩ := ha.legalNumber
  simp [exec, execCall, run1_legal hla, hva, stackFull_eq_false_iff.2 hroom]

theorem exec_call_of_full {s : State} {a : Operand} (ha : a.legal = true) (hfull : s.stackFull = true) :
    exec (.call a) s = .next (s.raise .stackOverflow) := by
  simp [exec, execCall, run1_legal ha, hfull]

/-- Settles O23, from the two laws of Call. -/
theorem callPushesAndJumps : Obligations.CallPushesAndJumps := by
  refine ⟨fun s a p => exec_call_of_room, fun s a d ha hd hle => ?_, fun a t => rfl⟩
  rw [exec_call_of_full ha (stackFull_of_depth_le hd hle), State.raise_eq_recorded]

/-! ## Return (R111) -/

theorem exec_ret_cons {s : State} {v : Word} {st : List Word} (hs : s.stack = v :: st) :
    exec .ret s = .next ((s.setStack st).setPc v) := by
  simp only [exec, execReturn, hs]

theorem exec_ret_nil {s : State} (hs : s.stack = []) : exec .ret s = .next s.setHalt := by
  simp only [exec, execReturn, hs]

/-- Settles O24, from the two laws of Return. -/
theorem returnPopsOrHalts : Obligations.ReturnPopsOrHalts :=
  ⟨fun _ _ _ => exec_ret_cons, fun _ => exec_ret_nil, fun _ => rfl⟩

/-! ## Call and then Return -/

/-- Settles O25: the Call leaves its pc on top of the stack it found, and the Return takes that top. -/
theorem callThenReturnRestores : Obligations.CallThenReturnRestores := by
  intro s a p ha hroom
  refine ⟨_, exec_call_of_room ha hroom, rfl, fun u hu => ?_⟩
  have hstack : u.stack = s.pc :: s.stack := hu
  exact exec_ret_cons hstack

end Sys2Proof.Machine

/-! # System and console: Halt, NoOperation, Output, Input, the unrecognized opcode (spec/47_system_io.md) -/

namespace Sys2Proof.Machine

/-! ## Halt, NoOperation, the unrecognized opcode (R115, R118, R119) -/

theorem exec_halt (s : State) : exec .halt s = .next s.setHalt := rfl

theorem exec_noOperation (s : State) : exec .noOperation s = .next s := rfl

theorem exec_unrecognizedOpcode (w : Word) (s : State) :
    exec (.unrecognizedOpcode w) s = .next (s.raise .invalidOpcode) := rfl

/-- Settles O26, from the laws of the two instructions. -/
theorem haltAndNoOperation : Obligations.HaltAndNoOperation :=
  ⟨exec_halt, exec_noOperation, fun _ => rfl, fun _ => rfl⟩

/-- Settles O30, from the law of the unrecognized opcode. -/
theorem unrecognizedOpcodeErrs : Obligations.UnrecognizedOpcodeErrs := by
  refine ⟨fun s w => ?_, fun t w => rfl⟩
  rw [exec_unrecognizedOpcode, State.raise_eq_recorded]

/-! ## Output (R116) -/

theorem exec_output_of_carries {s : State} {a : Operand} {p : Word} (ha : Carries s a p) :
    exec (.output a) s = .next (s.emit p) := by
  obtain ⟨hla, hva⟩ := ha.legalNumber
  simp only [exec, execOutput, run1_legal hla, hva]

/-- Settles O27, from the law of Output. -/
theorem outputAppendsValue : Obligations.OutputAppendsValue :=
  ⟨fun _ _ _ => exec_output_of_carries, fun _ _ => rfl⟩

/-! ## Input (R117) and its wait (40_cycle_fetch_decode.md R75) -/

theorem takeInput_nil {s : State} (hin : s.input = []) (n : Number) : takeInput n s = s.setInput [] (some n) := by
  simp only [takeInput, hin]

theorem takeInput_cons {s : State} {v : Word} {vs : List Word} (hin : s.input = v :: vs) (n : Number) :
    takeInput n s = writeDest n v (s.setInput vs none) := by
  simp only [takeInput, hin]

theorem exec_input_legal {a : Operand} (ha : a.legal = true) (s : State) :
    exec (.input a) s = .next (takeInput (legalNumber s a) s) :=
  run1_legal ha s takeInput

/-- A waiting Input is what a step goes on with (R74, R78). -/
theorem step_of_waiting {s : State} {n : Number} (hw : s.waiting = some n) : step s = .next (takeInput n s) := by
  simp only [step, hw]

theorem deliver_of_waiting {s : State} {n : Number} (hw : s.waiting = some n) (hin : s.input = []) (v : Word) :
    s.deliver v = some (s.setInput [v] (some n)) := by
  simp only [State.deliver, hw, hin]

theorem deliver_of_not_waiting {s : State} (hw : s.waiting = none) (v : Word) : s.deliver v = none := by
  simp only [State.deliver, hw]

/-- Settles O28: the word is taken off the input and stored under the destination guard; the latch was empty before. -/
theorem inputTakesOneWord : Obligations.InputTakesOneWord := by
  refine ⟨fun s a v vs ha hw hin => ?_, fun a t => rfl⟩
  have hlatch : s.setInput vs none = { s with input := vs } := by rw [← hw]; rfl
  rw [exec_input_legal ha, takeInput_cons hin, writeDest_legalNumber s ha, hlatch]

/-- Settles O29: with no word there `takeInput` answers the state with the Number in the latch; with the word the host
delivered it stores that word and empties both. -/
theorem inputWaitsForDelivery : Obligations.InputWaitsForDelivery := by
  refine ⟨fun s a ha hin => ?_, fun s n hw hin => ?_, fun s n v hw hin => ?_, fun s v hw => deliver_of_not_waiting hw v⟩
  · refine ⟨legalNumber s a, seenAs_legalNumber s ha, ?_⟩
    rw [exec_input_legal ha, takeInput_nil hin, ← hin]
    rfl
  · rw [step_of_waiting hw, takeInput_nil hin, ← hin, ← hw]
    rfl
  · refine ⟨_, deliver_of_waiting hw hin v, ?_⟩
    have htake : step (s.setInput [v] (some n)) = .next (writeDest n v (s.setInput [] none)) :=
      step_of_waiting (s := s.setInput [v] (some n)) rfl
    rw [htake, ← hin]
    refine ⟨?_, ?_⟩
    · rintro r x rfl; rfl
    · rintro x rfl; rfl

end Sys2Proof.Machine

/-! # Errors and the debug trace (spec/60_exceptions.md) -/

namespace Sys2Proof.Machine

/-! ## The debug trace is read-only (R145) -/

/-- The state with the selection of the debug trace and the trace replaced. -/
def State.retrace (s : State) (on : Bool) (tr : List DebugEntry) : State := { s with debugOn := on, trace := tr }

/-- States that differ in the trace and its selection alone are one state retraced. -/
theorem sameButTrace_iff {s t : State} : SameButTrace s t ↔ ∃ on tr, t = s.retrace on tr := by
  constructor
  · exact fun h => ⟨_, _, h⟩
  · rintro ⟨on, tr, rfl⟩
    rfl

/-- Execute does not see the trace or its selection. -/
theorem unseen_retrace (on : Bool) (tr : List DebugEntry) : Unseen (State.retrace · on tr) := by
  constructor
  case raise =>
    intro s e
    have herr : (s.retrace on tr).err = s.err := rfl
    unfold State.raise
    rw [herr]
    split <;> rfl
  all_goals intros; rfl

theorem expose_retrace (i : Instr) (s : State) (on : Bool) (tr : List DebugEntry) :
    ∃ tr', expose i (s.retrace on tr) = (expose i s).retrace on tr' := by
  refine ⟨(expose i (s.retrace on tr)).trace, ?_⟩
  rw [expose_eq i s, expose_eq i (s.retrace on tr)]
  rfl

theorem fetch_of_outside {s : State} (hpc : s.pc.toNat < s.cfg.pcCeiling) (hout : s.cfg.memWords ≤ s.pc.toNat) :
    fetch s = .noOpcode := by
  rw [fetch, if_neg hpc.not_ge, if_pos hout]

/-- Fetch ends alike on a state and on the state retraced: what it decides by, pc, memory and parameters, is the same. -/
theorem fetch_retrace (s : State) (on : Bool) (tr : List DebugEntry) :
    (∃ i u tr', fetch s = .run i u ∧ fetch (s.retrace on tr) = .run i (u.retrace on tr')) ∨
    (∃ u, fetch s = .ended u ∧ fetch (s.retrace on tr) = .ended (u.retrace on tr)) ∨
    (fetch s = .noOpcode ∧ fetch (s.retrace on tr) = .noOpcode) := by
  rcases Nat.lt_or_ge s.pc.toNat s.cfg.pcCeiling with hpc | hceil
  · rcases Nat.lt_or_ge s.pc.toNat s.cfg.memWords with hop | hout
    · by_cases hmiss : 0 < fetchCount s ∧ s.cfg.memWords ≤ s.pc.toNat + fetchCount s
      · obtain ⟨hcount, hmiss⟩ := hmiss
        refine .inr (.inl ⟨_, fetch_of_missing_operand hpc hop hcount hmiss, ?_⟩)
        rw [fetch_of_missing_operand (s := s.retrace on tr) hpc hop hcount hmiss, ← (unseen_retrace on tr).raise]
        rfl
      · have hin : s.pc.toNat + fetchCount s < s.cfg.memWords := by omega
        obtain ⟨tr', hexp⟩ := expose_retrace (fetchInstr s) (s.advancePc (fetchCount s)) on tr
        exact .inl ⟨_, _, tr', fetch_of_inside hpc hin, hexp ▸ fetch_of_inside (s := s.retrace on tr) hpc hin⟩
    · exact .inr (.inr ⟨fetch_of_outside hpc hout, fetch_of_outside (s := s.retrace on tr) hpc hout⟩)
  · obtain ⟨tr', hexp⟩ := expose_retrace .halt s on tr
    exact .inl ⟨_, _, tr', fetch_of_ceiling hceil, hexp ▸ fetch_of_ceiling (s := s.retrace on tr) hceil⟩

theorem step_of_fetch_noOpcode {s : State} (hw : s.waiting = none) (hterm : s.terminal = false)
    (hf : fetch s = .noOpcode) : step s = .fault .opcodeOutsideMemory := by
  simp only [step, hw, hterm, hf, Bool.false_eq_true, if_false]

/-- A state and the state retraced step to states that are one retraced from the other, or fault alike. -/
theorem step_retrace (s : State) (on : Bool) (tr : List DebugEntry) :
    (∃ s' tr', step s = .next s' ∧ step (s.retrace on tr) = .next (s'.retrace on tr')) ∨
    ∃ r, step s = .fault r ∧ step (s.retrace on tr) = .fault r := by
  have hunseen (tr' : List DebugEntry) := unseen_retrace on tr'
  cases hw : s.waiting with
  | some n =>
    refine .inl ⟨_, tr, step_of_waiting hw, ?_⟩
    rw [step_of_waiting (s := s.retrace on tr) hw, (hunseen tr).takeInput]
  | none =>
    cases hterm : s.terminal with
    | true => exact .inl ⟨_, tr, step_of_terminal hw hterm, step_of_terminal (s := s.retrace on tr) hw hterm⟩
    | false =>
      obtain ⟨i, u, tr', hf, hf'⟩ | ⟨u, hf, hf'⟩ | ⟨hf, hf'⟩ := fetch_retrace s on tr
      · obtain ⟨t, ht, -⟩ := exec_effect i u
        refine .inl ⟨t, tr', (step_of_fetch_run hw hterm hf).trans ht, ?_⟩
        exact (step_of_fetch_run (s := s.retrace on tr) hw hterm hf').trans ((hunseen tr').exec ht)
      · exact .inl ⟨u, tr, step_of_fetch_ended hw hterm hf, step_of_fetch_ended (s := s.retrace on tr) hw hterm hf'⟩
      · exact .inr ⟨_, step_of_fetch_noOpcode hw hterm hf, step_of_fetch_noOpcode (s := s.retrace on tr) hw hterm hf'⟩

/-- Settles O58: the second state is the first retraced, and a step answers one outcome only. -/
theorem debugTraceIsReadOnly : Obligations.DebugTraceIsReadOnly := by
  intro s t hst
  obtain ⟨on, tr, rfl⟩ := sameButTrace_iff.1 hst
  obtain ⟨u, tr', hs, ht⟩ | ⟨r, hs, ht⟩ := step_retrace s on tr <;> rw [hs]
  · refine ⟨fun s' h => ?_, nofun, nofun⟩
    cases h
    exact ⟨_, ht, sameButTrace_iff.2 ⟨on, tr', rfl⟩⟩
  · refine ⟨nofun, fun r' h => ?_, nofun⟩
    cases h
    exact ht

/-! ## The first error stays (R131, R137, R143) -/

theorem exec_err_of_err {i : Instr} {s t : State} (h : exec i s = .next t) (hs : s.err ≠ .none) : t.err = s.err := by
  have htaken : (taken i s).err = s.err := (taken_like i s).err.resolve_right fun hnone => hs hnone.1
  exact ((effect_of_exec h).err_of_err (htaken ▸ hs)).trans htaken

/-- Settles O39: Execute keeps the first error; a step begins no cycle with an error, and a waiting Input records none. -/
theorem firstErrorStays : Obligations.FirstErrorStays := by
  refine ⟨fun i s t => exec_err_of_err, fun s t h hs => ?_⟩
  obtain ⟨a, -, rfl⟩ | ⟨-, -, rfl⟩ | ⟨-, hterm, -⟩ | ⟨-, hterm, -⟩ := step_next h
  case inl => exact takeInput_err a s
  case inr.inl => rfl
  all_goals cases (terminal_of_err hs).symm.trans hterm

/-! ## Invalid operands (R132, 40_cycle_fetch_decode.md R67, R71) -/

/-- The instructions that set halt have no operand that could be invalid. -/
theorem exec_halt_of_invalid {i : Instr} {s t : State} (h : exec i s = .next t) (hi : i.legal = false) :
    t.halt = s.halt := by
  obtain heq | ⟨-, rfl | ⟨rfl, -⟩⟩ := exec_halt_cases h
  · exact heq
  · cases hi
  · cases hi

/-- Settles O40: Execute answers a next state, and each field is as its law says. -/
theorem invalidOperandIsDecodeError : Obligations.InvalidOperandIsDecodeError := by
  intro i s hi hs
  obtain ⟨t, ht, -⟩ := exec_effect i s
  exact ⟨t, ht, exec_err_of_invalid ht hi hs, exec_halt_of_invalid ht hi, (exec_sameParameters ht).1⟩

/-! ## Causes of the errors, and that they are precise (R133 to R136, R139, R141) -/

/-- The instructions that can record a condition, as `Effect.raised` has them. -/
def MayRaise (i : Instr) (s : State) (e : Err) : Prop :=
  (e = .stackOverflow ∧ s.stackFull = true ∧ ((∃ a, i = .push a) ∨ ∃ a, i = .call a)) ∨
  (e = .divideByZero ∧ ∃ a b c, i = .modulous a b c) ∨
  (e = .addressOutOfRange ∧ ((∃ a b, i = .readMemory a b) ∨ ∃ a b, i = .writeMemory a b)) ∨
  (e = .invalidOpcode ∧ ∃ w, i = .unrecognizedOpcode w)

/-- Of the effects only `raised` records an error, and it changes nothing else. -/
theorem Effect.raise_of_err {i : Instr} {u t : State} (h : Effect i u t) (hu : u.err = .none) (ht : t.err ≠ .none) :
    t = u.raise t.err ∧ MayRaise i u t.err := by
  cases h with
  | raised he => rw [State.raise_err, if_pos hu]; exact ⟨rfl, he⟩
  | took => exact absurd (by simpa using hu) ht
  | _ => exact absurd hu ht

theorem exec_raise_of_err {i : Instr} {s t : State} (hlegal : i.legal = true) (hs : s.err = .none)
    (h : exec i s = .next t) (ht : t.err ≠ .none) : t = s.raise t.err ∧ MayRaise i s t.err := by
  have heff := effect_of_exec h
  rw [taken_legal hlegal] at heff
  exact heff.raise_of_err hs ht

/-- Settles O42: the error was recorded by `raise`, which writes err alone. -/
theorem errorsArePrecise : Obligations.ErrorsArePrecise := by
  intro i s t hlegal hs h ht
  exact (exec_raise_of_err hlegal hs h ht).1.trans (State.raise_of_none hs _)

/-- Modulous with legal operands errs under a register destination and with a divisor 0 only. -/
theorem modulous_err_cause {a b c : Operand} {s t : State} (hlegal : (Instr.modulous a b c).legal = true)
    (hs : s.err = .none) (h : exec (.modulous a b c) s = .next t) (ht : t.err ≠ .none) :
    ∃ r, a = .reg r ∧ Carries s c 0 := by
  have hl : ∀ o ∈ [a, b, c], o.legal = true := List.all_eq_true.1 hlegal
  have hb := hl b (by simp)
  have hc := hl c (by simp)
  cases a with
  | invalid w => cases hlegal
  | lit l =>
    cases (exec_modulous_lit s l hb hc).symm.trans h
    exact absurd hs ht
  | reg r =>
    have hcarries := carries_legalNumber s hc
    cases (exec_modulous_reg r (carries_legalNumber s hb) hcarries).symm.trans h
    split at ht
    · next hzero => exact ⟨r, rfl, hzero ▸ hcarries⟩
    · exact absurd hs ht

/-- ReadMemory with legal operands errs under a register destination and at a word that does not exist only. -/
theorem readMemory_err_cause {a b : Operand} {s t : State} (hlegal : (Instr.readMemory a b).legal = true)
    (hs : s.err = .none) (h : exec (.readMemory a b) s = .next t) (ht : t.err ≠ .none) :
    ∃ r w, a = .reg r ∧ Carries s b w ∧ s.cfg.memWords ≤ w.toNat := by
  have hl : ∀ o ∈ [a, b], o.legal = true := List.all_eq_true.1 hlegal
  have hb := hl b (by simp)
  cases a with
  | invalid w => cases hlegal
  | lit l =>
    cases (exec_readMemory_lit s l hb).symm.trans h
    exact absurd hs ht
  | reg r =>
    have hcarries := carries_legalNumber s hb
    cases (exec_readMemory_reg r hcarries).symm.trans h
    split at ht
    · exact absurd hs ht
    · next hout => exact ⟨r, _, rfl, hcarries, Nat.not_lt.1 hout⟩

/-- WriteMemory with legal operands errs at a word that does not exist only. -/
theorem writeMemory_err_cause {a b : Operand} {s t : State} (hlegal : (Instr.writeMemory a b).legal = true)
    (hs : s.err = .none) (h : exec (.writeMemory a b) s = .next t) (ht : t.err ≠ .none) :
    ∃ w, Carries s a w ∧ s.cfg.memWords ≤ w.toNat := by
  have hl : ∀ o ∈ [a, b], o.legal = true := List.all_eq_true.1 hlegal
  have ha := carries_legalNumber s (hl a (by simp))
  have hb := carries_legalNumber s (hl b (by simp))
  refine ⟨_, ha, Nat.not_lt.1 fun hin => ?_⟩
  cases (exec_writeMemory_of_carries ha hb hin).symm.trans h
  exact absurd hs ht

/-- Settles O41: which instruction records which condition is `exec_raise_of_err`, and in which states is that instruction's
own law. -/
theorem errorsHaveTheirCauses : Obligations.ErrorsHaveTheirCauses := by
  intro i s t hlegal hs h ht
  obtain ⟨-, ⟨he, hfull, hi⟩ | ⟨he, a, b, c, rfl⟩ | ⟨he, ⟨a, b, rfl⟩ | ⟨a, b, rfl⟩⟩ | ⟨he, hi⟩⟩ :=
    exec_raise_of_err hlegal hs h ht
  · exact .inr (.inr (.inr ⟨he, hi, fun hroom => by simp [stackFull_eq_false_iff.2 hroom] at hfull⟩))
  · obtain ⟨r, rfl, hc⟩ := modulous_err_cause hlegal hs h ht
    exact .inr (.inl ⟨he, r, b, c, rfl, hc⟩)
  · obtain ⟨r, w, rfl, hb, hw⟩ := readMemory_err_cause hlegal hs h ht
    exact .inr (.inr (.inl ⟨he, .inl ⟨r, b, w, rfl, hb, hw⟩⟩))
  · obtain ⟨w, ha, hw⟩ := writeMemory_err_cause hlegal hs h ht
    exact .inr (.inr (.inl ⟨he, .inr ⟨a, b, w, rfl, ha, hw⟩⟩))
  · exact .inl ⟨he, hi⟩

end Sys2Proof.Machine

/-! # Reset, the loaded instruction, the order of console words (spec/70_reset_and_hazards.md) -/

namespace Sys2Proof.Machine

/-! ## Reset from any state (R150, R151) -/

/-- Reset keeps parameters and memory, and gives the reset state's stack, flags and latch. -/
theorem State.Inv.rst {s : State} (h : s.Inv) : s.rst.Inv := by
  obtain ⟨hcfg, hmem, -, -⟩ := h
  exact ⟨hcfg, hmem, fun _ _ => Nat.zero_le _, State.reset_statusInv⟩

/-- Settles O52: each field is the reset state's or as before, and the invariants speak of these fields. -/
theorem resetFromAnyState : Obligations.ResetFromAnyState :=
  fun _ => ⟨rfl, rfl, fun h => ⟨h.rst, State.reset_rangeInv.of_eq rfl rfl⟩⟩

/-! ## The loaded instruction runs (R152, 40_cycle_fetch_decode.md R68, 30_encoding.md R54) -/

theorem length_bytesOfNat (n w : Nat) : (bytesOfNat n w).length = n := by
  induction n generalizing w with
  | zero => rfl
  | succ n ih => rw [bytesOfNat, List.length_cons, ih]

theorem opcodeTable_wf : opcodeTable.wf := by decide

/-- The decoder reads an instruction from given bits when they begin with its encoding (30_encoding.md R46). -/
theorem encode_of_decodeTableWord {nbits w : Nat} {i : Instr} (h : decodeTableWord nbits w = some i) :
    i.wf opcodeTable = true ∧ ∃ rest, bytesOfNat 8 (w % 2 ^ nbits) = encode opcodeTable i ++ rest := by
  unfold decodeTableWord at h
  split at h
  · next j rest hdec =>
    cases h
    obtain ⟨hbytes, hwf⟩ := encodeAfterDecode opcodeTable _ i rest opcodeTable_wf hdec
    exact ⟨hwf, rest, hbytes⟩
  · cases h

/-- Placed at reset's pc the eight bytes are all inside the memory, and are read back from byte 0 on. -/
theorem readByte_reset_withFetchWord (nbits w k : Nat) :
    (State.reset.withFetchWord nbits w).mem.readByte k = (bytesOfNat 8 (w % 2 ^ nbits)).getD k 0 := by
  have hlen : (bytesOfNat 8 (w % 2 ^ nbits)).length = 8 := length_bytesOfNat _ _
  have hfits : (bytesOfNat 8 (w % 2 ^ nbits)).take 65534 = bytesOfNat 8 (w % 2 ^ nbits) :=
    List.take_of_length_le (by omega)
  have hmem : (State.reset.withFetchWord nbits w).mem =
      Memory.writeBytes [] 0 ((bytesOfNat 8 (w % 2 ^ nbits)).take 65534) := rfl
  rw [hmem, hfits, Memory.readByte_writeBytes Memory.wf_nil, hlen]
  split
  · rfl
  · next hk => exact (List.getD_eq_default _ _ (by omega)).symm

theorem length_encode (t : OpcodeTable) (i : Instr) : (encode t i).length = 2 * (1 + i.operands.length) := by
  rw [encode, length_flatMap_bytesOfWord, length_encodeWords]

/-- With the debug trace disabled nothing is exposed. -/
theorem expose_of_debugOff {s : State} (h : s.debugOn = false) (i : Instr) : expose i s = s := by
  rw [expose, h]
  rfl

/-- Settles O50: the bytes at pc are the encoding of the instruction decoded, so the step runs it (O47); at reset no trace is
made, and pc is 0. -/
theorem loadedWordRuns : Obligations.LoadedWordRuns := by
  intro nbits w i h
  obtain ⟨hwf, rest, hbytes⟩ := encode_of_decodeTableWord h
  have hlen : 2 * (1 + i.operands.length) + rest.length = 8 := by
    rw [← length_encode opcodeTable, ← List.length_append, ← hbytes, length_bytesOfNat]
  have hread : ∀ k, k < (encode opcodeTable i).length →
      (State.reset.withFetchWord nbits w).mem.readByte (2 * 0 + k) = (encode opcodeTable i).getD k 0 := fun k hk => by
    rw [readByte_reset_withFetchWord, hbytes, Nat.zero_add, List.getD_append _ _ _ _ hk]
  have hpc : (0 : Word).toNat < 32767 := by decide
  have hinside : 0 + i.operands.length < 32767 := by omega
  have hstep := stepRunsDecodedInstruction (State.reset.withFetchWord nbits w) i rfl rfl rfl opcodeTable_wf hwf hpc
    hinside hread
  rw [hstep, expose_of_debugOff rfl]
  exact congrArg (fun pc => exec i ((State.reset.withFetchWord nbits w).setPc pc)) (BitVec.zero_add _)

/-! ## Console words in program order (R157) -/

@[simp] theorem writeDest_input (n : Number) (v : Word) (s : State) : (writeDest n v s).input = s.input := by
  cases n <;> rfl

@[simp] theorem writeDest_output (n : Number) (v : Word) (s : State) : (writeDest n v s).output = s.output := by
  cases n <;> rfl

/-- The output grows at its end by one word at most, and Output alone makes it grow. -/
theorem Effect.output {i : Instr} {u t : State} (h : Effect i u t) :
    t.output = u.output ∨ ∃ a v, i = .output a ∧ t.output = u.output ++ [v] := by
  cases h with
  | emitted => exact .inr ⟨_, _, rfl, rfl⟩
  | _ => exact .inl (by simp)

/-- The input loses one word at most, its first, and to Input alone. -/
theorem Effect.input {i : Instr} {u t : State} (h : Effect i u t) :
    t.input = u.input ∨ ∃ a v, i = .input a ∧ u.input = v :: t.input := by
  cases h with
  | took hi => exact .inr ⟨_, _, rfl, by simpa using hi⟩
  | waited hi => exact .inl hi.symm
  | _ => exact .inl (by simp)

theorem exec_output_cases {i : Instr} {s t : State} (h : exec i s = .next t) :
    t.output = s.output ∨ ∃ a v, i = .output a ∧ t.output = s.output ++ [v] :=
  (taken_like i s).output ▸ (effect_of_exec h).output

theorem exec_input_cases {i : Instr} {s t : State} (h : exec i s = .next t) :
    t.input = s.input ∨ ∃ a v, i = .input a ∧ s.input = v :: t.input :=
  (taken_like i s).input ▸ (effect_of_exec h).input

/-- The output is the old one followed by at most one word, and the old input at most one word followed by the new one. -/
def ConsoleAdvances (s t : State) : Prop :=
  (∃ o, t.output = s.output ++ o ∧ o.length ≤ 1) ∧ ∃ c, s.input = c ++ t.input ∧ c.length ≤ 1

theorem ConsoleAdvances.of_cases {s t : State} (hout : t.output = s.output ∨ ∃ v, t.output = s.output ++ [v])
    (hin : t.input = s.input ∨ ∃ v, s.input = v :: t.input) : ConsoleAdvances s t := by
  constructor
  · obtain h | ⟨v, h⟩ := hout
    · exact ⟨[], by simp [h], by simp⟩
    · exact ⟨[v], h, by simp⟩
  · obtain h | ⟨v, h⟩ := hin
    · exact ⟨[], by simp [h], by simp⟩
    · exact ⟨[v], h, by simp⟩

theorem exec_consoleAdvances {i : Instr} {s t : State} (h : exec i s = .next t) : ConsoleAdvances s t :=
  .of_cases ((exec_output_cases h).imp_right fun ⟨_, v, _, hv⟩ => ⟨v, hv⟩)
    ((exec_input_cases h).imp_right fun ⟨_, v, _, hv⟩ => ⟨v, hv⟩)

theorem takeInput_consoleAdvances (n : Number) (s : State) : ConsoleAdvances s (takeInput n s) := by
  obtain ⟨hin, h⟩ | ⟨v, vs, hin, h⟩ := takeInput_cases n s <;> rw [h]
  · exact .of_cases (.inl rfl) (.inl hin.symm)
  · exact .of_cases (.inl (by simp)) (.inr ⟨v, by simpa using hin⟩)

/-- Settles O36: Execute and a waiting Input move at most one word each way, and Fetch none. -/
theorem consoleInProgramOrder : Obligations.ConsoleInProgramOrder := by
  refine ⟨fun s t h => ?_, fun i s t h => ⟨fun hne => ?_, fun hne => ?_⟩⟩
  · obtain ⟨a, -, rfl⟩ | ⟨-, -, rfl⟩ | ⟨-, -, i, u, hf, he⟩ | ⟨-, -, hf⟩ := step_next h
    case inl => exact takeInput_consoleAdvances a s
    case inr.inl => exact ConsoleAdvances.of_cases (.inl rfl) (.inl rfl)
    case inr.inr.inl =>
      obtain ⟨pc, tr, rfl⟩ := fetch_run_frame hf
      exact exec_consoleAdvances (s := { s with pc := pc, trace := tr }) he
    case inr.inr.inr =>
      obtain ⟨-, -, -, rfl⟩ := fetch_ended hf
      exact ConsoleAdvances.of_cases (.inl (by simp)) (.inl (by simp))
  · obtain ⟨a, v, hi, -⟩ := (exec_output_cases h).resolve_left hne
    exact ⟨a, hi⟩
  · obtain ⟨a, v, hi, -⟩ := (exec_input_cases h).resolve_left hne
    exact ⟨a, hi⟩

end Sys2Proof.Machine
